-- ==== Sys2Proof/Word.lean ====
section
/-! DEFINITION. The value types of the CORE (00_scope.md R7 to R9, R70, R71) and the port values of one clock cycle
(30_encoding.md R73). -/

namespace Sys2Proof

/-- A pattern: 32 bits, bit `i` set means output ON for one tick interval (R70). -/
abbrev Pattern := BitVec 32

/-- A repetition count: unsigned 0 to 255 (R71). -/
abbrev RepCount := BitVec 8

/-- A duration operand in milliseconds: unsigned 16 bits, DUR_W of R7, R77 (entry 12). -/
abbrev Duration := BitVec 16

/-- A byte index of a pattern: 0 is the least-significant byte, 3 the most-significant (R9, C2). -/
abbrev ByteIndex := BitVec 2

/-- The one-hot mask of the bit cursor within its byte; 0 means the cursor is uninitialised (R20, R23). -/
abbrev CursorMask := BitVec 8

/-- A 42-bit command word, format Q (R75). -/
abbrev CommandWord := BitVec 42

/-- The two output levels (R7, R153). -/
inductive Level where
  /-- The output device is silent. -/
  | off
  /-- The output device sounds. -/
  | on
  deriving DecidableEq, Repr

/-- The encoding of a level on the port `out`: ON = 1, OFF = 0 (R153). -/
def Level.toBit : Level → BitVec 1
  | .off => 0
  | .on => 1

/-- The level that plays a pattern bit: ON if set, OFF if clear (R70). -/
def Level.ofBit : Bool → Level
  | true => .on
  | false => .off

/-- The input ports sampled at one rising edge of `clk` (R73). `req_cw` is ignored when `req_valid` is 0. -/
structure Cycle where
  /-- Port `rst`: synchronous reset, the INIT operation. -/
  rst : Bool
  /-- Port `tick`: the strobe of the tick source. -/
  tick : Bool
  /-- Port `req_valid`: `reqCw` carries a request. -/
  reqValid : Bool
  /-- Port `req_cw`: the command word. -/
  reqCw : CommandWord
  deriving DecidableEq, Repr

/-- A clock cycle with all three inputs 0, which changes nothing (R74). -/
def Cycle.idle : Cycle := { rst := false, tick := false, reqValid := false, reqCw := 0#42 }

end Sys2Proof
end

