-- ==== Sys2Proof/Syntax.lean ====
section
/-! DEFINITION. The instructions: one constructor per row of spec/opcode_table.json (00_scope.md R4, 30_encoding.md R81). -/

namespace Sys2Proof

/-- The CORE's operations. Operand bits that an operation ignores (R76) are not operands (entry 13). Every operand value
is accepted (R80), so the operand types are the whole of well-formedness. -/
inductive Instr where
  /-- BEEP_DURATION `d`: a fixed-duration beep of `d` milliseconds (R90). -/
  | beepDuration (d : Duration)
  /-- BEEP_CADENCE `n`, `d`: `n` repetitions of a cadence of `d` milliseconds per phase (R93). -/
  | beepCadence (n : RepCount) (d : Duration)
  /-- BEEP_PATTERN `p`: a raw pattern (R96). -/
  | beepPattern (p : Pattern)
  /-- A command word with the reserved operation code 0b11, which is ignored (R79). -/
  | reservedOp3
  /-- TICK: one step of the Playback Engine (R120). -/
  | tick
  /-- INIT: put the CORE in its reset state (R165). -/
  | init
  deriving DecidableEq, Repr

/-- The three requests of the caller (R4): the operations that end in a write of the pending slot (R110). -/
def Instr.isRequest : Instr → Bool
  | .beepDuration _ => true
  | .beepCadence _ _ => true
  | .beepPattern _ => true
  | .reservedOp3 => false
  | .tick => false
  | .init => false

end Sys2Proof
end

