-- ==== Sys2Proof/WellFormed.lean ====
section
/-! DEFINITION. The canonical form of what the agents present (30_encoding.md R76, R82). An `Instr` needs no check: its
operands have the widths of their fields and every value of them is accepted (R80). -/

namespace Sys2Proof

/-- The operand bits that the operation of a command word ignores, as a mask (R76). -/
def CommandWord.ignoredBits (cw : CommandWord) : CommandWord :=
  if cw.extractLsb' 40 2 = 0b00#2 then 0x0FFFFFF0000#42
  else if cw.extractLsb' 40 2 = 0b01#2 then 0x000FFFF0000#42
  else if cw.extractLsb' 40 2 = 0b10#2 then 0x0FF00000000#42
  else 0x0FFFFFFFFFF#42

/-- A command word is canonical when its ignored operand bits are 0 (R76). -/
def CommandWord.canonical (cw : CommandWord) : Bool :=
  cw &&& CommandWord.ignoredBits cw = 0#42

/-- A clock cycle is canonical when it asserts exactly one of the three strobes, and `req_cw` holds a canonical command
word with `req_valid`, 0 without it (R82: one event a line, each with its canonical encoding). -/
def Cycle.canonical (c : Cycle) : Bool :=
  match c.rst, c.tick, c.reqValid with
  | true, false, false => c.reqCw = 0#42
  | false, true, false => c.reqCw = 0#42
  | false, false, true => CommandWord.canonical c.reqCw
  | false, false, false => false
  | false, true, true => false
  | true, false, true => false
  | true, true, false => false
  | true, true, true => false

end Sys2Proof
end

