-- ==== Sys2Proof/Decode.lean ====
section
/-! DEFINITION. Decoding and encoding: the command word (30_encoding.md R75 to R79), the clock cycle (R74), and the
numbering of spec/opcode_table.json. -/

namespace Sys2Proof

/-- Field `op`, CW[41:40] (R75). -/
def CommandWord.op (cw : CommandWord) : BitVec 2 := cw.extractLsb' 40 2

/-- Field `n`, CW[39:32] (R75). -/
def CommandWord.count (cw : CommandWord) : RepCount := cw.extractLsb' 32 8

/-- Field `data`, CW[31:0]: the pattern operand (R75). -/
def CommandWord.pattern (cw : CommandWord) : Pattern := cw.extractLsb' 0 32

/-- `data[15:0]`, CW[15:0]: the duration operand (R75, R77). -/
def CommandWord.duration (cw : CommandWord) : Duration := cw.extractLsb' 0 16

/-- The operation a command word stands for. Total: every 42-bit value has exactly one meaning (R78). -/
def decodeWord (cw : CommandWord) : Instr :=
  if CommandWord.op cw = 0b00#2 then .beepDuration (CommandWord.duration cw)
  else if CommandWord.op cw = 0b01#2 then .beepCadence (CommandWord.count cw) (CommandWord.duration cw)
  else if CommandWord.op cw = 0b10#2 then .beepPattern (CommandWord.pattern cw)
  else .reservedOp3

/-- The events one clock cycle expands to, in their order (R74): INIT alone; else TICK if `tick`, then the request if
`req_valid`. -/
def decodeCycle (c : Cycle) : List Instr :=
  if c.rst then [.init]
  else (if c.tick then [.tick] else []) ++ (if c.reqValid then [decodeWord c.reqCw] else [])

/-- The command word of the three fields of format Q: `op` [41:40], `n` [39:32], `data` [31:0] (R75). -/
def requestWord (op : BitVec 2) (n : BitVec 8) (data : BitVec 32) : CommandWord := op ++ n ++ data

/-- The canonical command word of a request, ignored bits 0 (R76, R82); none for the two strobes, which are no command
words. -/
def encodeWord : Instr → Option CommandWord
  | .beepDuration d => some (requestWord 0b00#2 0#8 (d.setWidth 32))
  | .beepCadence n d => some (requestWord 0b01#2 n (d.setWidth 32))
  | .beepPattern p => some (requestWord 0b10#2 0#8 p)
  | .reservedOp3 => some (requestWord 0b11#2 0#8 0#32)
  | .tick => none
  | .init => none

/-- The clock cycle that presents one request and nothing else. -/
def requestCycle (cw : CommandWord) : Cycle := { rst := false, tick := false, reqValid := true, reqCw := cw }

/-- The clock cycle that presents one operation and nothing else (R82). -/
def encode : Instr → Cycle
  | .beepDuration d => requestCycle (requestWord 0b00#2 0#8 (d.setWidth 32))
  | .beepCadence n d => requestCycle (requestWord 0b01#2 n (d.setWidth 32))
  | .beepPattern p => requestCycle (requestWord 0b10#2 0#8 p)
  | .reservedOp3 => requestCycle (requestWord 0b11#2 0#8 0#32)
  | .tick => { rst := false, tick := true, reqValid := false, reqCw := 0#42 }
  | .init => { rst := true, tick := false, reqValid := false, reqCw := 0#42 }

/-- Why a number is no row of spec/opcode_table.json. -/
inductive TableReject where
  /-- Neither a command word's width (42 bits, 48 in whole bytes) nor a strobe's (1 bit, 8 in a whole byte). -/
  | unknownWidth
  /-- A bit above CW[41] is set: no port carries it. -/
  | aboveCommandWord
  /-- No strobe is set, or a bit that is no strobe. -/
  | noStrobe
  deriving DecidableEq, Repr

/-- The clock cycle that presents the bits `w` of a table row of `nbits` bits. Format Q: `w` is the command word. Format
S: the table gives TICK and INIT the same one bit, so the strobes are numbered by port, bit 0 `tick` and bit 1 `rst`
(DESIGN CHOICE, entry 4). -/
def tableCycle (nbits w : Nat) : Except TableReject Cycle :=
  if nbits = 42 ∨ nbits = 48 then
    if w < 2 ^ 42 then .ok (requestCycle (BitVec.ofNat 42 w))
    else .error .aboveCommandWord
  else if nbits = 1 ∨ nbits = 8 then
    if w = 1 ∨ w = 2 ∨ w = 3 then .ok { rst := w.testBit 1, tick := w.testBit 0, reqValid := false, reqCw := 0#42 }
    else .error .noStrobe
  else .error .unknownWidth

/-- The instruction the decoder reads from a table row's bits. -/
def decodeTableWord (nbits w : Nat) : Option Instr :=
  match tableCycle nbits w with
  | .ok c => (decodeCycle c).head?
  | .error _ => none

end Sys2Proof
end

