-- ==== Sys2Proof/Config.lean ====
section
/-! DEFINITION. The implementation parameters of 00_scope.md R7. -/

namespace Sys2Proof

/-- CADENCE_LAYOUT (R7, R93, R95; D10): where BEEP_CADENCE puts the set bits of its cycle. A model must carry it as a
parameter (R95); here it is a field of the state that no operation writes (entry 3). -/
inductive CadenceLayout where
  /-- Bits `[0, t)` set, as the source writes the layout. -/
  | low
  /-- Bits `[t, 2t)` set, the layout under which a cadence plays beep-then-silence. -/
  | high
  deriving DecidableEq, Repr

/-- The default of CADENCE_LAYOUT: LOW (R7, 90_conflicts.md C1). -/
def Config.cadenceLayoutDefault : CadenceLayout := .low

/-- TICK_RATE_HZ: ticks per second assumed by the encoder (R7). -/
def Config.tickRateHz : Nat := 16

/-- MS_PER_S: divisor of the tick computation (R7). -/
def Config.msPerS : Nat := 1000

/-- DUR_MAX_TICKS: saturation bound of BEEP_DURATION (R7, R91; D7, entry 6). -/
def Config.durMaxTicks : Nat := 32

/-- CAD_MAX_TICKS: clamp bound of BEEP_CADENCE (R7, R94; D8, entry 7). -/
def Config.cadMaxTicks : Nat := 16

end Sys2Proof
end

