-- ==== Sys2Proof/Machine/Operands.lean ====
section
/-! DEFINITION. What a duration operand is turned into: tick counts, saturated and clamped (40_encoder.md R89, R91, R94). -/

namespace Sys2Proof.Machine

/-- TICKS(d) = floor(d * 16 / 1000), in exact arithmetic (R89, R100). -/
def ticks (d : Duration) : Nat := d.toNat * Config.tickRateHz / Config.msPerS

/-- The tick count of BEEP_DURATION: TICKS(d), saturated at 32 (R90, R91; entry 6). -/
def durationTicks (d : Duration) : Nat := min (ticks d) Config.durMaxTicks

/-- The tick count of one phase of BEEP_CADENCE: TICKS(d), clamped to 16 (R93, R94; entry 7). -/
def cadenceTicks (d : Duration) : Nat := min (ticks d) Config.cadMaxTicks

end Sys2Proof.Machine
end

