-- ==== Sys2Proof/Machine/State.lean ====
section
/-! DEFINITION. The state of the machine (10_state.md R20) and its reset value (10_state.md R35). -/

namespace Sys2Proof.Machine

/-- The seven elements of R20, each with the width R20's table gives it, 91 bits together (R20's sentence says 83, which
its own table does not add up to: DEDUCED, entry 21), and two fields of the MODEL's own (R14: neither is state of the
CORE): the port values of the clock cycles to come, and the build-time parameter CADENCE_LAYOUT. -/
structure State where
  /-- PEND_PAT: pattern of the request waiting in the pending slot (R20, R21). -/
  pendPat : Pattern
  /-- PEND_REP: repetition count of the waiting request; 0 means the slot is empty (R20, R21). -/
  pendRep : RepCount
  /-- ACT_PAT: pattern the engine is playing (R20, R22). -/
  actPat : Pattern
  /-- ACT_REP: repetitions still to finish; 0 means Idle (R20, R22). -/
  actRep : RepCount
  /-- CUR_BYTE: byte index of the bit cursor (R20, R23). -/
  curByte : ByteIndex
  /-- CUR_MASK: one-hot mask of the cursor's bit within its byte; 0 means uninitialised (R20, R23; D11, entry 15). -/
  curMask : CursorMask
  /-- OUT: the level last set on the output device (R20, R24). -/
  out : Level
  /-- The MODEL's own: the inputs the agents will present, next clock cycle first (R13, R73; DESIGN CHOICE, entry 2). -/
  inputs : List Cycle
  /-- The MODEL's own: CADENCE_LAYOUT, which no operation writes (R7, R95; DESIGN CHOICE, entry 3). -/
  cadenceLayout : CadenceLayout
  deriving DecidableEq, Repr

/-- The CORE has no fault: "No error return paths exist anywhere in this design" (R15, R170). No constructor (entry 14). -/
inductive Fault
  deriving DecidableEq, Repr

/-- Refusals. Nothing raises one: every operation has its meaning and none refuses (R15, R80). -/
inductive Refusal where
  /-- The host's name for an instruction without a meaning. Raised by no arm of `exec`. Safe. -/
  | notModelled (mnemonic : String)
  deriving DecidableEq, Repr

/-- The machine right after reset (R35, R190): slot empty, engine Idle, cursor uninitialised, OUT off. The two fields of
the model's own: no input is waiting (entry 2), and CADENCE_LAYOUT is at its default LOW (entry 3). -/
def State.reset : State where
  pendPat := 0#32
  pendRep := 0#8
  actPat := 0#32
  actRep := 0#8
  curByte := 0#2
  curMask := 0#8
  out := .off
  inputs := []
  cadenceLayout := Config.cadenceLayoutDefault

end Sys2Proof.Machine
end

