-- ==== Sys2Proof/Machine/Flags.lean ====
section
/-! DEFINITION. The status predicates, functions of the state and not storage (10_state.md R25), and the output ports
(30_encoding.md R73). -/

namespace Sys2Proof.Machine

/-- ENG_IDLE: ACT_REP == 0 (R25). -/
def State.engIdle (s : State) : Bool := s.actRep = 0#8

/-- ENG_PLAYING: ACT_REP != 0 (R25). -/
def State.engPlaying (s : State) : Bool := s.actRep ≠ 0#8

/-- PEND_EMPTY: PEND_REP == 0 (R25). -/
def State.pendEmpty (s : State) : Bool := s.pendRep = 0#8

/-- CUR_VALID: CUR_MASK != 0 (R25). -/
def State.curValid (s : State) : Bool := s.curMask ≠ 0#8

/-- The port `busy`: PEND_REP != 0 or ACT_REP != 0 (R160; D18, entry 18). -/
def State.busy (s : State) : Bool := s.pendRep ≠ 0#8 ∨ s.actRep ≠ 0#8

/-- The port `out`: the element OUT, ON = 1 and OFF = 0, with no logic between (R152, R153; D17, entry 17). -/
def State.outPort (s : State) : BitVec 1 := s.out.toBit

end Sys2Proof.Machine
end

