-- ==== Sys2Proof/Machine/Ops.lean ====
section
/-! DEFINITION. The shared operations: bits and bytes of a pattern (00_scope.md R9, R10), the write and the consume of the
pending slot (41_pending_buffer.md R110, R112), the level-set of the Output Driver (43_output_driver.md R151). There is no
exception entry or return to share: the CORE takes none (60_exceptions.md R170, R177). -/

namespace Sys2Proof.Machine

/-- The largest `i < k` with bit `i` of `v` set; 0 if there is none. -/
def highestSetBelow {w : Nat} (v : BitVec w) : Nat → Nat
  | 0 => 0
  | k + 1 => if v.getLsbD k then k else highestSetBelow v k

/-- `msb(v)` of R10: for `v != 0`, the index of the most-significant set bit. No rule applies it to 0. -/
def msbIndex {w : Nat} (v : BitVec w) : Nat := highestSetBelow v w

/-- `byte(p, i)` of R9: bits `8*i+7` to `8*i`. -/
def byteAt (p : Pattern) (i : ByteIndex) : BitVec 8 := p.extractLsb' (8 * i.toNat) 8

/-- The largest byte index whose byte is not 0 (R123); 0 if there is none, which no rule meets (R122). -/
def highestByte (p : Pattern) : ByteIndex :=
  if byteAt p 3#2 ≠ 0#8 then 3#2
  else if byteAt p 2#2 ≠ 0#8 then 2#2
  else if byteAt p 1#2 ≠ 0#8 then 1#2
  else 0#2

/-- LEN(p) = msb(p) + 1, the number of TICKs one repetition of `p != 0` takes (R131). -/
def patternLength (p : Pattern) : Nat := msbIndex p + 1

/-- POS, the cursor's flat position `8*CUR_BYTE + msb(CUR_MASK)`; meaningful only when CUR_MASK != 0 (R23). -/
def State.pos (s : State) : Nat := 8 * s.curByte.toNat + msbIndex s.curMask

/-- PEND_WRITE: both fields of the slot at once, unconditionally, and nothing else (R110, R56). -/
def pendWrite (request : Pattern × RepCount) (s : State) : State :=
  { s with pendPat := request.1, pendRep := request.2 }

/-- The level-set of the Output Driver (R150, R151). -/
def setLevel (level : Level) (s : State) : State := { s with out := level }

end Sys2Proof.Machine
end

