-- ==== Sys2Proof/Machine/Encoder.lean ====
section
/-! DEFINITION. The Pattern Encoder and the requests (40_encoder.md), each ending in the write of the pending slot
(41_pending_buffer.md R110), and the reserved operation code (30_encoding.md R79). -/

namespace Sys2Proof.Machine

/-- `(1 << t) - 1`: the number whose `t` lowest bits are set, formed exactly (R100). -/
def lowBits (t : Nat) : Nat := (1 <<< t) - 1

/-- ENC_DURATION (R90). -/
def encDuration (d : Duration) : Pattern × RepCount := (BitVec.ofNat 32 (lowBits (durationTicks d)), 1#8)

/-- The pattern of one cadence cycle of `t` ticks per phase, for either value of CADENCE_LAYOUT (R93). -/
def cadencePattern (layout : CadenceLayout) (t : Nat) : Pattern :=
  match layout with
  | .low => BitVec.ofNat 32 (lowBits t)
  | .high => BitVec.ofNat 32 (lowBits t <<< t)

/-- ENC_CADENCE (R93). -/
def encCadence (layout : CadenceLayout) (n : RepCount) (d : Duration) : Pattern × RepCount :=
  (cadencePattern layout (cadenceTicks d), n)

/-- ENC_PATTERN (R96). -/
def encPattern (p : Pattern) : Pattern × RepCount := (p, 1#8)

/-- BEEP_DURATION `d` (R90). -/
def execBeepDuration (d : Duration) (s : State) : Host.Outcome State Fault Refusal :=
  .next (pendWrite (encDuration d) s)

/-- BEEP_CADENCE `n`, `d` (R93), in the layout the build has. -/
def execBeepCadence (n : RepCount) (d : Duration) (s : State) : Host.Outcome State Fault Refusal :=
  .next (pendWrite (encCadence s.cadenceLayout n d) s)

/-- BEEP_PATTERN `p` (R96). -/
def execBeepPattern (p : Pattern) (s : State) : Host.Outcome State Fault Refusal :=
  .next (pendWrite (encPattern p) s)

/-- A command word with the reserved code 0b11: ignored, no state element changes, nothing is signalled (R79, R172; the
spec's decision D4, entry 5). -/
def execReservedOp3 (s : State) : Host.Outcome State Fault Refusal := .next s

end Sys2Proof.Machine
end

