-- ==== Sys2Proof/Machine/Init.lean ====
section
/-! DEFINITION. INIT (44_wait_and_init.md R165). -/

namespace Sys2Proof.Machine

/-- INIT: the seven elements to their reset values (R165, R35; the spec's decisions D16 and D22, entry 1). What the agents
will drive and the build parameter are outside the CORE and stay. -/
def execInit (s : State) : Host.Outcome State Fault Refusal :=
  .next { s with
    pendPat := 0#32
    pendRep := 0#8
    actPat := 0#32
    actRep := 0#8
    curByte := 0#2
    curMask := 0#8
    out := .off }

end Sys2Proof.Machine
end

