-- ==== Sys2Proof/Machine/Playback.lean ====
section
/-! DEFINITION. The Playback Engine: TICK (42_playback_engine.md R120), one definition per step R121 to R128. -/

namespace Sys2Proof.Machine

/-- Pick-up (R121, R112): an Idle engine takes the waiting request and clears the slot's count; PEND_PAT and the cursor
keep their values (D12, entry 16). -/
def pickUp (s : State) : State :=
  if s.engIdle && !s.pendEmpty then { s with actPat := s.pendPat, actRep := s.pendRep, pendRep := 0#8 } else s

/-- A zero pattern resolves to Idle, in any state (R122; D19, entry 11). -/
def resolveZero (s : State) : State :=
  if s.engPlaying && s.actPat = 0#32 then { s with actRep := 0#8 } else s

/-- Cursor location: the most-significant set bit of the most-significant non-zero byte (R123). -/
def locateCursor (s : State) : State :=
  { s with
    curByte := highestByte s.actPat
    curMask := 1#8 <<< msbIndex (byteAt s.actPat (highestByte s.actPat)) }

/-- Bit output: ON if the bit at the cursor is set, OFF otherwise (R124). -/
def cursorLevel (s : State) : Level := Level.ofBit (byteAt s.actPat s.curByte &&& s.curMask ≠ 0#8)

/-- Advance by one place (R125), with the byte transition (R126) and the end of a repetition (R127). -/
def advanceCursor (s : State) : State :=
  if s.curMask >>> 1 ≠ 0#8 then { s with curMask := s.curMask >>> 1 }
  else if s.curByte ≠ 0#2 then { s with curByte := s.curByte - 1#2, curMask := 0x80#8 }
  else { s with curMask := 0#8, actRep := s.actRep - 1#8 }

/-- Step 2 of R120, for a Playing engine: locate or read the bit, then advance. -/
def play (s : State) : State × Level :=
  if s.curValid then (advanceCursor s, cursorLevel s) else (advanceCursor (locateCursor s), .on)

/-- Steps 1 to 3 of R120: pick-up, zero pattern, then playing or idle (R128). -/
def engineStep (s : State) : State × Level :=
  if (resolveZero (pickUp s)).engPlaying then play (resolveZero (pickUp s)) else (resolveZero (pickUp s), .off)

/-- TICK as the pure function of R143: the next state and the level returned, which is also set on the device (R151). -/
def tick (s : State) : State × Level := (setLevel (engineStep s).2 (engineStep s).1, (engineStep s).2)

/-- TICK (R120). The level it returns is OUT of the next state (R151). -/
def execTick (s : State) : Host.Outcome State Fault Refusal := .next (tick s).1

end Sys2Proof.Machine
end

