-- ==== Sys2Proof/Machine/Dispatch.lean ====
section
/-! DEFINITION. The dispatch from an instruction to its meaning, one arm per row of spec/opcode_table.json. -/

namespace Sys2Proof.Machine

def exec (i : Instr) (s : State) : Host.Outcome State Fault Refusal :=
  match i with
  | .beepDuration d => Sys2Proof.Machine.execBeepDuration d s
  | .beepCadence n d => Sys2Proof.Machine.execBeepCadence n d s
  | .beepPattern p => Sys2Proof.Machine.execBeepPattern p s
  | .reservedOp3 => Sys2Proof.Machine.execReservedOp3 s
  | .tick => Sys2Proof.Machine.execTick s
  | .init => Sys2Proof.Machine.execInit s

end Sys2Proof.Machine
end

