-- ==== Sys2Proof/Machine/Clock.lean ====
section
/-! DEFINITION. One clock cycle: which inputs it samples and the events it performs (30_encoding.md R74). -/

namespace Sys2Proof.Machine

/-- What comes next, on the state left by what came before; a stop is kept. -/
def chain (o : Host.Outcome State Fault Refusal) (f : State → Host.Outcome State Fault Refusal) :
    Host.Outcome State Fault Refusal :=
  match o with
  | .next t => f t
  | .fault r => .fault r
  | .refused r => .refused r

/-- Events in order, each on the state the one before it left (R61). -/
def runEvents : List Instr → State → Host.Outcome State Fault Refusal
  | [], s => .next s
  | i :: rest, s => chain (exec i s) (runEvents rest)

/-- What one clock cycle does with the inputs it sampled (R74; D13, D14, D25, entry 9). -/
def clockCycle (c : Cycle) (s : State) : Host.Outcome State Fault Refusal := runEvents (decodeCycle c) s

/-- The inputs of the next clock cycle, and the state without them. When no agent drives anything more, the cycle is idle
(entry 2). -/
def sampleInputs (s : State) : Cycle × State :=
  match s.inputs with
  | [] => (Cycle.idle, s)
  | c :: rest => (c, { s with inputs := rest })

/-- `s` with the agents driving the port values `c` in the next clock cycle (R73; entry 2). -/
def State.present (c : Cycle) (s : State) : State := { s with inputs := c :: s.inputs }

/-- The state in which the next clock cycle presents the bits of a table row; unchanged where they are no row. -/
def presentTableWord (s : State) (nbits w : Nat) : State :=
  match tableCycle nbits w with
  | .ok c => s.present c
  | .error _ => s

end Sys2Proof.Machine
end

