-- ==== Sys2Proof/Machine/Step.lean ====
section
/-! DEFINITION. The step of the machine: one clock cycle (30_encoding.md R73, R74). -/

namespace Sys2Proof.Machine

/-- One rising edge of `clk`: sample the inputs, then do what they ask for (R73, R74). -/
def step (s : State) : Host.Outcome State Fault Refusal := clockCycle (sampleInputs s).1 (sampleInputs s).2

/-- `s` with the bits of a table row presented to the next clock cycle, so that the next step performs exactly that
operation (entry 2). -/
def State.withFetchWord (s : State) (nbits w : Nat) : State := presentTableWord s nbits w

end Sys2Proof.Machine
end

