-- ==== Sys2Proof/Machine/Flat.lean ====
section
/-! DEFINITION. The flat view of the Playback Engine: one position in place of the byte index and the mask
(42_playback_engine.md R130). -/

namespace Sys2Proof.Machine

/-- The engine's state in the flat view: `pos` is POS, none when the cursor is uninitialised (R23, R130). -/
structure Flat where
  /-- PEND_PAT. -/
  pendPat : Pattern
  /-- PEND_REP. -/
  pendRep : RepCount
  /-- ACT_PAT. -/
  actPat : Pattern
  /-- ACT_REP. -/
  actRep : RepCount
  /-- POS, the number of the pattern bit to play next. -/
  pos : Option Nat
  deriving DecidableEq, Repr

/-- The flat view of a state. -/
def State.flat (s : State) : Flat where
  pendPat := s.pendPat
  pendRep := s.pendRep
  actPat := s.actPat
  actRep := s.actRep
  pos := if s.curMask = 0#8 then none else some s.pos

/-- Pick-up in the flat view (R121). -/
def Flat.pickUp (f : Flat) : Flat :=
  if f.actRep = 0#8 ∧ f.pendRep ≠ 0#8 then { f with actPat := f.pendPat, actRep := f.pendRep, pendRep := 0#8 } else f

/-- The zero pattern in the flat view (R122). -/
def Flat.resolveZero (f : Flat) : Flat := if f.actPat = 0#32 then { f with actRep := 0#8 } else f

/-- The bit that a Playing engine outputs: POS, or msb(ACT_PAT) at the start of a repetition (R130). -/
def Flat.playedBit (f : Flat) : Nat := f.pos.getD (msbIndex f.actPat)

/-- TICK in the flat view: the bits of a repetition in order of falling bit number, then one repetition less (R130). -/
def flatTick (f : Flat) : Flat × Level :=
  let g := f.pickUp.resolveZero
  if g.actRep = 0#8 then (g, .off)
  else if g.playedBit = 0 then
    ({ g with pos := none, actRep := g.actRep - 1#8 }, Level.ofBit (g.actPat.getLsbD 0))
  else ({ g with pos := some (g.playedBit - 1) }, Level.ofBit (g.actPat.getLsbD g.playedBit))

end Sys2Proof.Machine
end

