-- ==== Sys2Proof/Machine/Pseudo.lean ====
section
/-! DEFINITION. The caller's pseudo-operations `TICK k` and WAIT (30_encoding.md R83, 44_wait_and_init.md R162). -/

namespace Sys2Proof.Machine

/-- `TICK k` (R83): the state after `k` TICKs. -/
def tickTimes : Nat → State → State
  | 0, s => s
  | k + 1, s => tickTimes k (tick s).1

/-- The levels that `TICK k` returns, first TICK first. -/
def tickLevels : Nat → State → List Level
  | 0, _ => []
  | k + 1, s => (tick s).2 :: tickLevels k (tick s).1

/-- WAIT (R83, R162): the least number of TICKs, at most the first argument, after which `busy` is 0; none if there is no
such number (the ticks stop, R206). The caller issues no request meanwhile. -/
def waitTicks : Nat → State → Option Nat
  | 0, s => if s.busy then none else some 0
  | k + 1, s => if s.busy then (waitTicks k (tick s).1).map (· + 1) else some 0

/-- The TICKs left of the active request (R132, R163): from the cursor down to bit 0, then each further repetition. -/
def ticksLeft (s : State) : Nat :=
  if s.engIdle then 0
  else if s.curValid then s.pos + 1 + (s.actRep.toNat - 1) * patternLength s.actPat
  else s.actRep.toNat * patternLength s.actPat

/-- The TICKs that the request waiting in the slot adds to a WAIT (R163). -/
def slotTicks (s : State) : Nat :=
  if s.pendEmpty then 0
  else if s.pendPat = 0#32 then 1
  else s.pendRep.toNat * patternLength s.pendPat

end Sys2Proof.Machine
end

