-- ==== Sys2Proof/Machine/Run.lean ====
section
/-! DEFINITION. Runs, finite and infinite, and what they show: the levels of the TICKs and `busy` after each event
(00_scope.md R12). A run is a sequence of events; a function of the event's number stands for an infinite one. -/

namespace Sys2Proof.Machine

/-- What the outside sees of one event of a run (R12). -/
structure Observation where
  /-- The level returned, where the event is a TICK. -/
  level : Option Level
  /-- `busy` after the event. -/
  busy : Bool
  deriving DecidableEq, Repr

/-- What is seen of the event `i` that left the state `t`; a TICK's level is OUT after it (R12, R151). -/
def observe (i : Instr) (t : State) : Observation where
  level := if i = .tick then some t.out else none
  busy := t.busy

/-- The observable result of a finite run, first event first (R12). -/
def observations : List Instr → State → List Observation
  | [], _ => []
  | i :: rest, s =>
    match exec i s with
    | .next t => observe i t :: observations rest t
    | .fault _ => []
    | .refused _ => []

/-- The levels that the TICKs of a finite run return, first TICK first (R12). -/
def eventLevels (events : List Instr) (s : State) : List Level := (observations events s).filterMap (·.level)

/-- `k` clock cycles on the inputs that wait in the state (entry 2). -/
def runSteps : Nat → State → Host.Outcome State Fault Refusal
  | 0, s => .next s
  | k + 1, s => chain (step s) (runSteps k)

/-- What the actions `act 0`, `act 1`, up to but not `act k` make of `s`, each on the state the one before it left. -/
def stateAfter (act : Nat → State → Host.Outcome State Fault Refusal) (s : State) :
    Nat → Host.Outcome State Fault Refusal
  | 0 => .next s
  | k + 1 => chain (stateAfter act s k) (act k)

/-- The state of an infinite run after its first `k` events (R12, R61). -/
def streamState (events : Nat → Instr) (s : State) (k : Nat) : Host.Outcome State Fault Refusal :=
  stateAfter (fun j => exec (events j)) s k

/-- What the outside sees of event `k` of an infinite run (R12). -/
def streamObservation (events : Nat → Instr) (s : State) (k : Nat) : Option Observation :=
  match streamState events s (k + 1) with
  | .next t => some (observe (events k) t)
  | .fault _ => none
  | .refused _ => none

/-- The state after `k` clock cycles of the machine when the agents go on driving for ever, `cycles j` in cycle `j`: each
is one `step` (R73, R74; entry 2). -/
def clockedState (cycles : Nat → Cycle) (s : State) (k : Nat) : Host.Outcome State Fault Refusal :=
  stateAfter (fun j t => step (t.present (cycles j))) s k

end Sys2Proof.Machine
end

