-- ==== Sys2Proof/Safety.lean ====
section
/-! DEFINITION. The terms of claims: the invariants of reachable states (10_state.md R30 to R33), the caller's contract
(70_reset_and_hazards.md R200) and a sound that has finished (R205). No run can end badly: there is no fault (R170). -/

namespace Sys2Proof.Machine

/-- `m` is the index of the most-significant set bit of `p`: the meaning of `msb(p)` for `p != 0` (R10). -/
def IsTopBit (p : Pattern) (m : Nat) : Prop := p.getLsbD m = true ∧ ∀ j, m < j → p.getLsbD j = false

/-- A mask with exactly one bit set (R32). -/
abbrev OneHot (m : CursorMask) : Prop := ∃ k : Fin 8, m = 1#8 <<< k.val

/-- The invariants of every state reachable from reset: R30, R31, R32 and R33 in that order. The second half of R32,
CUR_MASK != 0 implies ACT_REP != 0, is R30 turned round. -/
abbrev State.Inv (s : State) : Prop :=
  (s.actRep = 0#8 → s.curMask = 0#8) ∧
  (s.actRep ≠ 0#8 → s.actPat ≠ 0#32) ∧
  (s.curMask = 0#8 ∨ OneHot s.curMask) ∧
  (s.curMask ≠ 0#8 → s.pos + 1 ≤ msbIndex s.actPat)

/-- The caller's range contract of R200, which the CORE does not check: BEEP_DURATION up to 1999 ms, BEEP_CADENCE up to
1062 ms. -/
def inCallerRange : Instr → Bool
  | .beepDuration d => d.toNat ≤ 1999
  | .beepCadence _ d => d.toNat ≤ 1062
  | .beepPattern _ => true
  | .reservedOp3 => true
  | .tick => true
  | .init => true

/-- The buzzer is silent and stays so: nothing waits, nothing plays, and OUT is OFF (R205). -/
def State.soundFinished (s : State) : Bool := !s.busy && s.out = .off

end Sys2Proof.Machine
end

