-- ==== Sys2Proof/Certificates/Slice0/Obligations.lean ====
section
/-! DEFINITION. The statements for the provers. Each docstring names the rule of spec/ it formalises, or, for a derived
statement, the section of spec/ or the log entry it rests on. -/

open Sys2Proof Sys2Proof.Machine

/-! ## Encoding -/

/-- Decoding the clock cycle that encodes an operation gives that operation back, every operand at every value. -/
def Obligations.DecodeOfEncodeIsInstr : Prop := ∀ i : Instr, decodeCycle (encode i) = [i]

/-- The other direction: a canonical command word is the canonical encoding of what it decodes to. -/
def Obligations.EncodeOfDecodeIsCanonicalWord : Prop :=
  ∀ cw : CommandWord, CommandWord.canonical cw = true → encodeWord (decodeWord cw) = some cw

/-- R76: each operation code selects its operation with the operands in their fields, whatever the ignored bits hold; an
assembler writes those bits as 0; TICK and INIT are not command words. -/
def Obligations.CommandWordFieldsDecode : Prop :=
  (∀ (n : BitVec 8) (data : BitVec 32),
    decodeWord (0b00#2 ++ n ++ data) = .beepDuration (data.extractLsb' 0 16)) ∧
  (∀ (n : BitVec 8) (data : BitVec 32),
    decodeWord (0b01#2 ++ n ++ data) = .beepCadence n (data.extractLsb' 0 16)) ∧
  (∀ (n : BitVec 8) (data : BitVec 32), decodeWord (0b10#2 ++ n ++ data) = .beepPattern data) ∧
  (∀ (n : BitVec 8) (data : BitVec 32), decodeWord (0b11#2 ++ n ++ data) = .reservedOp3) ∧
  (∀ d : Duration, encodeWord (.beepDuration d) = some (0b00#2 ++ 0#8 ++ d.setWidth 32)) ∧
  (∀ (n : RepCount) (d : Duration), encodeWord (.beepCadence n d) = some (0b01#2 ++ n ++ d.setWidth 32)) ∧
  (∀ p : Pattern, encodeWord (.beepPattern p) = some (0b10#2 ++ 0#8 ++ p)) ∧
  encodeWord .reservedOp3 = some 0x30000000000#42 ∧ encodeWord .tick = none ∧ encodeWord .init = none

/-- Command words of 95_test_vectors.md V1 to V4, ignored bits among them, decode to their operations. -/
def Obligations.SampleWordsDecode : Prop :=
  decodeWord 0x0000000007D#42 = .beepDuration 125 ∧
  decodeWord 0x0FF0000007D#42 = .beepDuration 125 ∧
  decodeWord 0x1030000007D#42 = .beepCadence 3 125 ∧
  decodeWord 0x1FF000003E8#42 = .beepCadence 255 1000 ∧
  decodeWord 0x2AB00000005#42 = .beepPattern 5 ∧
  decodeWord 0x3FFFFFFFFFF#42 = .reservedOp3

/-! ## One clock cycle -/

/-- When the next clock cycle decodes to the one operation `i`, the step is `i` on the state without that cycle's inputs
(entry 2: the step adds nothing else). -/
def Obligations.StepRunsDecodedInstruction : Prop :=
  ∀ (s : State) (c : Cycle) (rest : List Cycle) (i : Instr),
    s.inputs = c :: rest → decodeCycle c = [i] → step s = exec i { s with inputs := rest }

/-- The bits of a table row, presented to the next clock cycle, run the instruction the decoder reads from them, and leave
the state's other inputs waiting (entries 2 and 4). -/
def Obligations.TableWordRunsItsInstruction : Prop :=
  ∀ (s : State) (nbits w : Nat) (i : Instr),
    decodeTableWord nbits w = some i → step (s.withFetchWord nbits w) = exec i s

/-- R74: what one clock cycle does, as a function of the sampled inputs. -/
def Obligations.ClockCycleOrdersItsEvents : Prop :=
  ∀ (s : State) (c : Cycle) (rest : List Cycle), s.inputs = c :: rest →
    (c.rst = true → step s = exec .init { s with inputs := rest }) ∧
    (c.rst = false → c.tick = true → c.reqValid = false → step s = exec .tick { s with inputs := rest }) ∧
    (c.rst = false → c.tick = false → c.reqValid = true →
      step s = exec (decodeWord c.reqCw) { s with inputs := rest }) ∧
    (c.rst = false → c.tick = true → c.reqValid = true →
      ∃ t, exec .tick { s with inputs := rest } = .next t ∧ step s = exec (decodeWord c.reqCw) t) ∧
    (c.rst = false → c.tick = false → c.reqValid = false → step s = .next { s with inputs := rest })

/-- The model's choice (entry 2): when the agents present nothing more, a clock cycle changes nothing. -/
def Obligations.StepWithoutInputsIsIdle : Prop := ∀ s : State, s.inputs = [] → step s = .next s

/-- 41_pending_buffer.md section 3, same-cycle SUBMIT and pick-up: the TICK picks up the waiting request A and plays its first bit, and the slot
ends the cycle holding the new request B. Neither is lost. -/
def Obligations.SameCycleRefillKeepsBothRequests : Prop :=
  ∀ (s : State) (cw : CommandWord) (rest : List Cycle),
    s.inputs = { rst := false, tick := true, reqValid := true, reqCw := cw } :: rest →
    (decodeWord cw).isRequest = true → s.actRep = 0#8 → s.curMask = 0#8 → s.pendRep ≠ 0#8 → s.pendPat ≠ 0#32 →
    ∃ b t, exec (decodeWord cw) s = .next b ∧ exec .tick { s with inputs := rest } = .next t ∧
      step s = .next { t with pendPat := b.pendPat, pendRep := b.pendRep } ∧
      t.actPat = s.pendPat ∧ t.out = .on

/-- R170: every operation, and every clock cycle, has a next state in every state. -/
def Obligations.EveryOperationCompletes : Prop :=
  (∀ (i : Instr) (s : State), ∃ t, exec i s = .next t) ∧ (∀ s : State, ∃ t, step s = .next t)

/-! ## Requests -/

/-- R110: every request writes its pair into both fields of the slot at once, whatever the slot, the engine and `busy` are,
and writes nothing else; PEND_EMPTY becomes `rep == 0`; it takes one clock cycle. (The pair depends on the build's cadence
layout alone, entry 3.) -/
def Obligations.RequestsWriteSlotUnconditionally : Prop :=
  ∀ (i : Instr) (layout : CadenceLayout), i.isRequest = true →
    ∃ (pat : Pattern) (rep : RepCount), ∀ s : State, s.cadenceLayout = layout →
      exec i s = .next { s with pendPat := pat, pendRep := rep } ∧
      ({ s with pendPat := pat, pendRep := rep } : State).pendEmpty = decide (rep = 0#8) ∧
      (∀ rest, s.inputs = encode i :: rest →
        step s = .next { s with pendPat := pat, pendRep := rep, inputs := rest })

/-- R90: BEEP_DURATION writes `min(TICKS(d), 32)` set bits from bit 0 and the count 1 into the slot, and nothing else. -/
def Obligations.BeepDurationWritesSlot : Prop :=
  ∀ (d : Duration) (s : State), ∃ p : Pattern,
    exec (.beepDuration d) s = .next { s with pendPat := p, pendRep := 1#8 } ∧
    p.toNat = 2 ^ (min (d.toNat * 16 / 1000) 32) - 1 ∧
    ({ s with pendPat := p, pendRep := 1#8 } : State).busy = true

/-- 40_encoder.md section 2, the law of BEEP_DURATION: within the caller's range exactly `floor(d * 16 / 1000)` contiguous
set bits from bit 0 and the count 1; for every `d` the smaller of that and 32 (by the spec's decision D7, entry 6). That a
longer duration never encodes a smaller pattern is the spec's own inference: it marks that clause as derived from R89 and
R90. -/
def Obligations.DurationLawAndMonotone : Prop :=
  (∀ (d : Duration) (s t : State), exec (.beepDuration d) s = .next t →
    t.pendRep = 1#8 ∧
    (inCallerRange (.beepDuration d) = true → ∀ i, t.pendPat.getLsbD i = decide (i < d.toNat * 16 / 1000)) ∧
    (∀ i, t.pendPat.getLsbD i = decide (i < min (d.toNat * 16 / 1000) 32))) ∧
  (∀ (d₁ d₂ : Duration) (s t₁ t₂ : State), d₁ ≤ d₂ → exec (.beepDuration d₁) s = .next t₁ →
    exec (.beepDuration d₂) s = .next t₂ → t₁.pendPat ≤ t₂.pendPat)

/-- R91 (the spec's decision D7, entry 6): from 32 ticks up the pattern is all ones, and no duration above 62 ms encodes 0
or a shorter pattern than a smaller duration does. -/
def Obligations.BeepDurationSaturates : Prop :=
  (∀ (d : Duration) (s : State), 32 ≤ d.toNat * 16 / 1000 →
    exec (.beepDuration d) s = .next { s with pendPat := 0xFFFFFFFF#32, pendRep := 1#8 }) ∧
  (∀ (d : Duration) (s t : State), 62 < d.toNat → exec (.beepDuration d) s = .next t → t.pendPat ≠ 0#32) ∧
  (∀ (d₁ d₂ : Duration) (s t₁ t₂ : State), d₁ ≤ d₂ → exec (.beepDuration d₁) s = .next t₁ →
    exec (.beepDuration d₂) s = .next t₂ → patternLength t₁.pendPat ≤ patternLength t₂.pendPat)

/-- 40_encoder.md section 3: BEEP_CADENCE writes the cycle of `t = min(TICKS(d), 16)` ticks per phase in the build's layout, and the count `n`,
into the slot, and nothing else. -/
def Obligations.BeepCadenceWritesSlot : Prop :=
  ∀ (n : RepCount) (d : Duration) (s : State), ∃ p : Pattern,
    exec (.beepCadence n d) s = .next { s with pendPat := p, pendRep := n } ∧
    (s.cadenceLayout = .low → p.toNat = 2 ^ (min (d.toNat * 16 / 1000) 16) - 1) ∧
    (s.cadenceLayout = .high →
      p.toNat = (2 ^ (min (d.toNat * 16 / 1000) 16) - 1) * 2 ^ (min (d.toNat * 16 / 1000) 16)) ∧
    ({ s with pendPat := p, pendRep := n } : State).pendEmpty = decide (n = 0#8) ∧
    ({ s with pendPat := p, pendRep := n } : State).busy = decide (n ≠ 0#8 ∨ s.actRep ≠ 0#8)

/-- R94 (the spec's decision D8, entry 7): every duration from 1000 ms up encodes the cycle of 16 ticks per phase. -/
def Obligations.BeepCadenceClamps : Prop :=
  ∀ (n : RepCount) (d : Duration) (s : State), 1000 ≤ d.toNat →
    (s.cadenceLayout = .low →
      exec (.beepCadence n d) s = .next { s with pendPat := 0x0000FFFF#32, pendRep := n }) ∧
    (s.cadenceLayout = .high →
      exec (.beepCadence n d) s = .next { s with pendPat := 0xFFFF0000#32, pendRep := n })

/-- 40_encoder.md section 4: BEEP_PATTERN writes the pattern unmodified and the count 1 into the slot, and nothing else. -/
def Obligations.BeepPatternWritesSlot : Prop :=
  ∀ (p : Pattern) (s : State),
    exec (.beepPattern p) s = .next { s with pendPat := p, pendRep := 1#8 } ∧
    ({ s with pendPat := p, pendRep := 1#8 } : State).busy = true

/-- R79 (the spec's decision D4, entry 5): a command word with the reserved code changes nothing. -/
def Obligations.ReservedCodeIsIgnored : Prop :=
  (∀ s : State, exec .reservedOp3 s = .next s) ∧
  (∀ (cw : CommandWord) (s : State), 0x30000000000 ≤ cw.toNat → exec (decodeWord cw) s = .next s)

/-- 40_encoder.md section 5, tick count 0 (the spec's decision D9, entry 8): a duration below one tick interval encodes pattern 0 with its count, written to
the slot like any other request. -/
def Obligations.ShortDurationsEncodeZeroPattern : Prop :=
  ∀ (n : RepCount) (d : Duration) (s : State), d.toNat ≤ 62 →
    exec (.beepDuration d) s = .next { s with pendPat := 0#32, pendRep := 1#8 } ∧
    exec (.beepCadence n d) s = .next { s with pendPat := 0#32, pendRep := n }

/-- 41_pending_buffer.md section 3, the overwrite law: of two requests with only TICKs of a Playing engine between them, the
later one decides the slot, and the earlier leaves no trace. -/
def Obligations.LaterRequestDecidesSlot : Prop :=
  ∀ (i j : Instr) (k : Nat) (s : State), i.isRequest = true → j.isRequest = true →
    (∀ m, m < k → (tickTimes m s).actRep ≠ 0#8) →
    ∃ t, exec i s = .next t ∧ exec j (tickTimes k t) = exec j (tickTimes k s)

/-- 41_pending_buffer.md section 3: a cadence of count 0 empties the slot, leaves what is playing alone, and an
Idle engine then picks nothing up. -/
def Obligations.CadenceZeroCancelsPendingRequest : Prop :=
  ∀ (d : Duration) (s : State), ∃ p : Pattern,
    exec (.beepCadence 0#8 d) s = .next { s with pendPat := p, pendRep := 0#8 } ∧
    (s.actRep = 0#8 → exec .tick { s with pendPat := p, pendRep := 0#8 } =
      .next { s with pendPat := p, pendRep := 0#8, out := .off })

/-! ## The Playback Engine -/

/-- R138: ticking an Idle engine with an empty slot any number of times yields OFF and changes nothing but OUT. -/
def Obligations.IdleTicksAreAFixedPoint : Prop :=
  ∀ s : State, s.actRep = 0#8 → s.pendRep = 0#8 →
    exec .tick s = .next { s with out := .off } ∧
    ∀ k, tickLevels k s = List.replicate k .off ∧ tickTimes (k + 1) s = { s with out := .off }

/-- R122: a picked-up zero pattern is consumed and the engine stays Idle with OFF; so does any state with a count and
pattern 0. -/
def Obligations.TickResolvesZeroPattern : Prop :=
  (∀ s : State, s.actRep = 0#8 → s.pendRep ≠ 0#8 → s.pendPat = 0#32 →
    exec .tick s = .next { s with actPat := 0#32, actRep := 0#8, pendRep := 0#8, out := .off }) ∧
  (∀ s : State, s.actRep ≠ 0#8 → s.actPat = 0#32 → exec .tick s = .next { s with actRep := 0#8, out := .off })

/-- 42_playback_engine.md section 3, transitions T3 and T4: an Idle engine picks the waiting request up, plays its most-significant set bit
`m` at once, ON, and moves the cursor one place down, or ends the repetition where `m` is 0. -/
def Obligations.TickPicksUpRequest : Prop :=
  ∀ (s : State) (m : Nat), s.actRep = 0#8 → s.curMask = 0#8 → s.pendRep ≠ 0#8 → IsTopBit s.pendPat m →
    exec .tick s = .next (if m = 0 then
        { s with actPat := s.pendPat, actRep := s.pendRep - 1#8, pendRep := 0#8, curByte := 0#2, curMask := 0#8, out := .on }
      else
        { s with actPat := s.pendPat, actRep := s.pendRep, pendRep := 0#8, curByte := BitVec.ofNat 2 ((m - 1) / 8),
                 curMask := BitVec.ofNat 8 (2 ^ ((m - 1) % 8)), out := .on })

/-- 42_playback_engine.md section 3, transitions T5 and T6: a Playing engine with no cursor starts the repetition again from the most-significant
set bit `m`, ON, and leaves the slot alone. -/
def Obligations.TickRestartsRepetition : Prop :=
  ∀ (s : State) (m : Nat), s.actRep ≠ 0#8 → s.curMask = 0#8 → IsTopBit s.actPat m →
    exec .tick s = .next (if m = 0 then
        { s with actRep := s.actRep - 1#8, curByte := 0#2, curMask := 0#8, out := .on }
      else
        { s with curByte := BitVec.ofNat 2 ((m - 1) / 8), curMask := BitVec.ofNat 8 (2 ^ ((m - 1) % 8)), out := .on })

/-- 42_playback_engine.md section 3, transitions T7 to T9, by R124 to R127: a Playing engine outputs the bit `k` at the cursor and moves
one place down, across a byte's end without a tick, or ends the repetition after bit 0; the slot is left alone. -/
def Obligations.TickPlaysBitAtCursor : Prop :=
  ∀ (s : State) (k : Nat), s.actRep ≠ 0#8 → s.actPat ≠ 0#32 → k < 32 →
    s.curByte = BitVec.ofNat 2 (k / 8) → s.curMask = BitVec.ofNat 8 (2 ^ (k % 8)) →
    exec .tick s = .next (if k = 0 then
        { s with curMask := 0#8, actRep := s.actRep - 1#8, out := Level.ofBit (s.actPat.getLsbD 0) }
      else
        { s with curByte := BitVec.ofNat 2 ((k - 1) / 8), curMask := BitVec.ofNat 8 (2 ^ ((k - 1) % 8)),
                 out := Level.ofBit (s.actPat.getLsbD k) })

/-- 42_playback_engine.md section 4, the flat view: the engine that keeps one position in place of the byte index and the mask returns the
same levels and goes through the same states. -/
def Obligations.FlatViewAgrees : Prop :=
  ∀ s : State, s.Inv →
    (tick s).1.flat = (flatTick s.flat).1 ∧ (tick s).2 = (flatTick s.flat).2 ∧ exec .tick s = .next (tick s).1

/-- 42_playback_engine.md section 4 (flat view, pattern length, total duration): a request picked up from an Idle engine
returns, count times, its bits from the most-significant set bit `m` down to bit 0; the engine is Playing until the last
of these TICKs and Idle after it. -/
def Obligations.RequestPlaysItsRepetitions : Prop :=
  ∀ (s : State) (m : Nat), s.actRep = 0#8 → s.curMask = 0#8 → s.pendRep ≠ 0#8 → IsTopBit s.pendPat m →
    tickLevels (s.pendRep.toNat * (m + 1)) s =
      (List.replicate s.pendRep.toNat
        ((List.range (m + 1)).map (fun k => Level.ofBit (s.pendPat.getLsbD (m - k))))).flatten ∧
    (∀ k, 0 < k → k < s.pendRep.toNat * (m + 1) → (tickTimes k s).engPlaying = true) ∧
    (tickTimes (s.pendRep.toNat * (m + 1)) s).engIdle = true

/-- R133: a request submitted while the engine is Idle gives ON on the very next TICK, unless its pattern or its count is
0. The cursor premise is R30, which holds of every reachable Idle state. -/
def Obligations.RequestStartsOnNextTick : Prop :=
  ∀ (i : Instr) (s : State), i.isRequest = true → s.actRep = 0#8 → s.curMask = 0#8 →
    ∃ t, exec i s = .next t ∧
      (t.pendPat ≠ 0#32 → t.pendRep ≠ 0#8 → ∃ u, exec .tick t = .next u ∧ u.out = .on ∧ u.actPat = t.pendPat ∧ u.pendRep = 0#8)

/-- R139: while a request plays, no sequence of requests among its TICKs changes a level it returns. -/
def Obligations.SubmitsNeverPreempt : Prop :=
  ∀ (es : List Instr) (s : State), s.Inv → (∀ i ∈ es, i ≠ .init) → es.count .tick ≤ ticksLeft s →
    eventLevels es s = tickLevels (es.count .tick) s

/-- R28: the slot is transferred only when the engine is Idle. While Playing a TICK does not read or change the slot and
keeps ACT_PAT, and nothing but TICK and INIT changes the active state at all. -/
def Obligations.PickUpOnlyWhenIdle : Prop :=
  (∀ (s : State) (p : Pattern) (r : RepCount), s.actRep ≠ 0#8 →
    ∃ t, exec .tick s = .next t ∧ t.actPat = s.actPat ∧ t.pendPat = s.pendPat ∧ t.pendRep = s.pendRep ∧
      exec .tick { s with pendPat := p, pendRep := r } = .next { t with pendPat := p, pendRep := r }) ∧
  (∀ (i : Instr) (s : State), i ≠ .tick → i ≠ .init →
    ∃ t, exec i s = .next t ∧
      t = { s with pendPat := t.pendPat, pendRep := t.pendRep })

/-- 44_wait_and_init.md section 1: WAIT ends after the TICKs left of the active request plus those the waiting request
adds, and not before. -/
def Obligations.WaitLastsTicksLeftPlusSlot : Prop :=
  ∀ (s : State) (limit : Nat), s.Inv → ticksLeft s + slotTicks s ≤ limit →
    waitTicks limit s = some (ticksLeft s + slotTicks s)

/-- 44_wait_and_init.md section 1, the table of when `busy` changes, one clause a row. -/
def Obligations.BusyChangesAsTabled : Prop :=
  (∀ (d : Duration) (s : State), ∃ t, exec (.beepDuration d) s = .next t ∧ t.busy = true) ∧
  (∀ (p : Pattern) (s : State), ∃ t, exec (.beepPattern p) s = .next t ∧ t.busy = true) ∧
  (∀ (n : RepCount) (d : Duration) (s : State), n ≠ 0#8 → ∃ t, exec (.beepCadence n d) s = .next t ∧ t.busy = true) ∧
  (∀ (d : Duration) (s : State), ∃ t, exec (.beepCadence 0#8 d) s = .next t ∧ t.busy = s.engPlaying) ∧
  (∀ s : State, s.actRep = 0#8 → s.curMask = 0#8 → s.pendRep ≠ 0#8 → s.pendPat ≠ 0#32 →
    ∃ t, exec .tick s = .next t ∧ t.busy = !decide (s.pendPat = 1#32 ∧ s.pendRep = 1#8)) ∧
  (∀ s : State, s.actRep = 0#8 → s.pendRep ≠ 0#8 → s.pendPat = 0#32 → ∃ t, exec .tick s = .next t ∧ t.busy = false) ∧
  (∀ s : State, s.actRep ≠ 0#8 → s.Inv → ticksLeft s = 1 →
    ∃ t, exec .tick s = .next t ∧ t.engIdle = true ∧ t.busy = !s.pendEmpty) ∧
  (∀ s : State, ∃ t, exec .init s = .next t ∧ t.busy = false)

/-- 70_reset_and_hazards.md section 3 (output after completion): when the last bit has been played and the slot is empty,
`busy` is 0 while OUT still holds that bit's level; one more TICK and the sound has finished. -/
def Obligations.OutputHeldAfterCompletion : Prop :=
  ∀ s : State, s.actRep = 1#8 → s.actPat ≠ 0#32 → s.curByte = 0#2 → s.curMask = 1#8 → s.pendRep = 0#8 →
    ∃ t u, exec .tick s = .next t ∧ t.busy = false ∧ t.out = Level.ofBit (s.actPat.getLsbD 0) ∧
      exec .tick t = .next u ∧ u.soundFinished = true

/-- 42_playback_engine.md section 4 (back-to-back requests): the TICK that ends a pattern does not pick up, and the TICK
after it returns the first bit, ON, of the request in the slot. -/
def Obligations.NextRequestFollowsWithoutGap : Prop :=
  ∀ s : State, s.Inv → s.actRep ≠ 0#8 → ticksLeft s = 1 → s.pendRep ≠ 0#8 → s.pendPat ≠ 0#32 →
    ∃ t u, exec .tick s = .next t ∧ t.actRep = 0#8 ∧ t.pendPat = s.pendPat ∧ t.pendRep = s.pendRep ∧
      exec .tick t = .next u ∧ u.out = .on ∧ u.actPat = s.pendPat ∧ u.pendRep = 0#8

/-- 42_playback_engine.md section 4 (ACT_REP arithmetic): a TICK of a Playing engine keeps the count or takes one from it,
so it never wraps and never increases. -/
def Obligations.RepCountFallsByOneAtMost : Prop :=
  ∀ s : State, s.actRep ≠ 0#8 → s.actPat ≠ 0#32 →
    ∃ t, exec .tick s = .next t ∧ (t.actRep = s.actRep ∨ t.actRep.toNat + 1 = s.actRep.toNat)

/-- 40_encoder.md section 3 (what a cadence plays, for either value of the parameter, entry 3): under LOW `n * t` ON ticks
with no silence; under HIGH `n` times `t` ON ticks then `t` OFF ticks; then the engine is done. -/
def Obligations.CadencePlaysItsLayout : Prop :=
  ∀ (n : RepCount) (d : Duration) (s : State) (t : Nat), t = min (d.toNat * 16 / 1000) 16 → 1 ≤ t →
    s.actRep = 0#8 → s.curMask = 0#8 →
    ∃ u, exec (.beepCadence n d) s = .next u ∧
      (s.cadenceLayout = .low →
        tickLevels (n.toNat * t) u = List.replicate (n.toNat * t) .on ∧
        waitTicks (n.toNat * t) u = some (n.toNat * t)) ∧
      (s.cadenceLayout = .high →
        tickLevels (n.toNat * (2 * t)) u =
          (List.replicate n.toNat (List.replicate t .on ++ List.replicate t .off)).flatten ∧
        waitTicks (n.toNat * (2 * t)) u = some (n.toNat * (2 * t)))

/-! ## INIT, reset and invariants -/

/-- R165, its pseudocode, flags, idempotence, example and encoding: INIT leaves the seven elements at their reset values
and is idempotent; a TICK after it returns OFF and changes nothing; the strobe `rst` does it whatever `tick` and
`req_valid` are in the same cycle. (R165's remark that nothing else discards a pending request is not claimed: entry
22.) -/
def Obligations.InitResetsSevenElements : Prop :=
  ∀ s : State, ∃ t, exec .init s = .next t ∧
    t = { s with pendPat := 0#32, pendRep := 0#8, actPat := 0#32, actRep := 0#8, curByte := 0#2, curMask := 0#8, out := .off } ∧
    t.engIdle = true ∧ t.pendEmpty = true ∧ t.curValid = false ∧ t.busy = false ∧
    exec .init t = .next t ∧ exec .tick t = .next t ∧
    (∀ (c : Cycle) (rest : List Cycle), s.inputs = c :: rest → c.rst = true → step s = .next { t with inputs := rest })

/-- R35 (the spec's decision D16, entry 1): the seven elements after reset. -/
def Obligations.ResetStateValues : Prop :=
  State.reset.pendRep = 0#8 ∧ State.reset.actRep = 0#8 ∧ State.reset.curMask = 0#8 ∧ State.reset.curByte = 0#2 ∧
  State.reset.pendPat = 0#32 ∧ State.reset.actPat = 0#32 ∧ State.reset.out = .off

/-- The invariants of 10_state.md section 3 hold after reset. -/
def Obligations.ResetSatisfiesInv : Prop := State.reset.Inv

/-- 10_state.md section 3: every clock cycle, whatever the inputs, keeps the invariants R30 to R33. -/
def Obligations.StepKeepsInv : Prop := ∀ s t : State, s.Inv → step s = .next t → t.Inv

/-! ## What is read and what is left alone -/

/-- R151: a TICK sets OUT to the level it returns; a request, a reserved command word, and a clock cycle without `tick` or
`rst` leave OUT unchanged. -/
def Obligations.OutSetOnlyByTickAndInit : Prop :=
  (∀ s : State, exec .tick s = .next (tick s).1 ∧ (tick s).1.out = (tick s).2) ∧
  (∀ (i : Instr) (s t : State), i ≠ .tick → i ≠ .init → exec i s = .next t → t.out = s.out) ∧
  (∀ (s t : State) (c : Cycle) (rest : List Cycle), s.inputs = c :: rest → c.rst = false → c.tick = false →
    step s = .next t → t.out = s.out)

/-- R143: a TICK is decided by the playback state and the slot alone: whatever the inputs, the build's cadence layout and
the held level are, its result in the other elements, OUT included, is the same. -/
def Obligations.TickReadsOnlyPlaybackState : Prop :=
  ∀ (s : State) (ins : List Cycle) (layout : CadenceLayout) (level : Level),
    ∃ t, exec .tick s = .next t ∧
      exec .tick { s with inputs := ins, cadenceLayout := layout, out := level } =
        .next { t with inputs := ins, cadenceLayout := layout }

/-- 10_state.md section 1: no operation reads OUT. -/
def Obligations.NoOperationReadsOut : Prop :=
  ∀ (i : Instr) (s : State) (level : Level),
    ∃ t, exec i s = .next t ∧
      exec i { s with out := level } = .next (if i = .tick ∨ i = .init then t else { t with out := level })

/-- 10_state.md section 1: PEND_PAT is not read while the slot is empty, nor ACT_PAT and CUR_BYTE while the engine is Idle:
other values there change nothing else. -/
def Obligations.UnreadFieldsDoNotMatter : Prop :=
  (∀ (i : Instr) (s : State) (p : Pattern), s.pendRep = 0#8 →
    ∃ t q, exec i s = .next t ∧ exec i { s with pendPat := p } = .next { t with pendPat := q }) ∧
  (∀ (i : Instr) (s : State) (p : Pattern) (b : ByteIndex), s.actRep = 0#8 → s.curMask = 0#8 →
    ∃ t q c, exec i s = .next t ∧
      exec i { s with actPat := p, curByte := b } = .next { t with actPat := q, curByte := c })

/-- The model's own fields (entries 2 and 3): a clock cycle takes one cycle's inputs and never changes the build's cadence
layout. -/
def Obligations.StepKeepsLayoutAndConsumesInput : Prop :=
  ∀ s t : State, step s = .next t → t.cadenceLayout = s.cadenceLayout ∧ t.inputs = s.inputs.tail

/-! ## Runs -/

/-- 00_scope.md section 4 (runs): every infinite sequence of events is a run, through a state before each event, and what
it shows of event `k` is the level of a TICK and the value of `busy` after the event. -/
def Obligations.InfiniteRunShowsLevelsAndBusy : Prop :=
  ∀ (events : Nat → Instr) (s : State), ∃ trace : Nat → State, trace 0 = s ∧
    ∀ k, streamState events s k = .next (trace k) ∧ exec (events k) (trace k) = .next (trace (k + 1)) ∧
      streamObservation events s k =
        some { level := if events k = .tick then some (tick (trace k)).2 else none, busy := (trace (k + 1)).busy }

/-- 00_scope.md section 4 (runs): a finite run shows one observation per event, those that an infinite run shows of the
same events. -/
def Obligations.FiniteRunIsPrefixOfInfiniteRun : Prop :=
  ∀ (events : Nat → Instr) (s : State) (n : Nat),
    (observations ((List.range n).map events) s).map some = (List.range n).map (streamObservation events s)

/-- 30_encoding.md section 2 (a cycle is the event sequence it expands to): `k` clock cycles of a machine whose agents go
on driving are the events that these cycles expand to; so every infinite sequence of events, one in a cycle, is a run of
`step`. -/
def Obligations.ClockedRunsAreEventRuns : Prop :=
  (∀ (cycles : Nat → Cycle) (s : State) (k : Nat),
    clockedState cycles s k = runEvents (((List.range k).map cycles).flatMap decodeCycle) s) ∧
  (∀ (events : Nat → Instr) (s : State) (k : Nat),
    clockedState (fun j => encode (events j)) s k = streamState events s k)

/-- The model's choice (entry 2): to find the first `n` cycles' inputs waiting in the state is the same as to be driven one
cycle at a time. -/
def Obligations.WaitingInputsRunAsDriven : Prop :=
  ∀ (cycles : Nat → Cycle) (s : State) (n : Nat),
    runSteps n { s with inputs := (List.range n).map cycles ++ s.inputs } = clockedState cycles s n
end

