-- ==== Sys2Proof/Laws/Bits.lean ====
section
/-! SUPPORT. What `msbIndex`, `byteAt`, `highestByte` and the encoder's bit patterns can be. -/

namespace Sys2Proof.Machine

/-- `highestSetBelow v k` is the largest set bit below `k`, where there is one. -/
theorem highestSetBelow_spec {w : Nat} (v : BitVec w) (k : Nat) (h : ∃ j, j < k ∧ v.getLsbD j = true) :
    highestSetBelow v k < k ∧ v.getLsbD (highestSetBelow v k) = true ∧
      ∀ j, highestSetBelow v k < j → j < k → v.getLsbD j = false := by
  induction k with
  | zero => obtain ⟨j, hj, -⟩ := h; omega
  | succ k ih =>
    by_cases hk : v.getLsbD k = true
    · simp only [highestSetBelow, hk, if_true]
      exact ⟨by omega, trivial, fun j h1 h2 => by omega⟩
    · simp only [highestSetBelow, hk]
      obtain ⟨j, hj, hset⟩ := h
      have hne : j ≠ k := fun e => hk (e ▸ hset)
      obtain ⟨h1, h2, h3⟩ := ih ⟨j, by omega, hset⟩
      refine ⟨by simpa using by omega, by simpa using h2, fun i hi hi' => ?_⟩
      by_cases hik : i = k
      · simpa [hik] using hk
      · exact h3 i (by simpa using hi) (by omega)

theorem exists_getLsbD_of_ne_zero {w : Nat} {v : BitVec w} (h : v ≠ 0#w) : ∃ j, j < w ∧ v.getLsbD j = true := by
  by_contra hall
  push Not at hall
  exact h (BitVec.eq_of_getLsbD_eq fun i hi => by simpa using hall i hi)

/-- `msbIndex v` is a set bit of `v != 0`. -/
theorem getLsbD_msbIndex {w : Nat} {v : BitVec w} (h : v ≠ 0#w) : v.getLsbD (msbIndex v) = true :=
  (highestSetBelow_spec v w (exists_getLsbD_of_ne_zero h)).2.1

theorem msbIndex_lt {w : Nat} {v : BitVec w} (h : v ≠ 0#w) : msbIndex v < w :=
  (highestSetBelow_spec v w (exists_getLsbD_of_ne_zero h)).1

/-- No bit of `v != 0` above `msbIndex v` is set. -/
theorem getLsbD_above_msbIndex {w : Nat} {v : BitVec w} (h : v ≠ 0#w) {j : Nat} (hj : msbIndex v < j) :
    v.getLsbD j = false := by
  by_cases hw : j < w
  · exact (highestSetBelow_spec v w (exists_getLsbD_of_ne_zero h)).2.2 j hj hw
  · exact BitVec.getLsbD_of_ge v j (by omega)

/-- A set bit with no set bit above it is `msbIndex`. -/
theorem msbIndex_eq {w : Nat} {v : BitVec w} {m : Nat} (hm : v.getLsbD m = true)
    (habove : ∀ j, m < j → v.getLsbD j = false) : msbIndex v = m := by
  have hv : v ≠ 0#w := fun e => by simp [e] at hm
  rcases Nat.lt_trichotomy (msbIndex v) m with h | h | h
  · simp [getLsbD_above_msbIndex hv h] at hm
  · exact h
  · have := getLsbD_msbIndex hv
    simp [habove _ h] at this

theorem IsTopBit.ne_zero {p : Pattern} {m : Nat} (h : IsTopBit p m) : p ≠ 0#32 := fun e => by
  have := h.1
  simp [e] at this

theorem IsTopBit.lt {p : Pattern} {m : Nat} (h : IsTopBit p m) : m < 32 := by
  by_contra hge
  have := h.1
  simp [BitVec.getLsbD_of_ge p m (by omega)] at this

theorem IsTopBit.msbIndex_eq {p : Pattern} {m : Nat} (h : IsTopBit p m) : msbIndex p = m :=
  Machine.msbIndex_eq h.1 h.2

theorem isTopBit_msbIndex {p : Pattern} (h : p ≠ 0#32) : IsTopBit p (msbIndex p) :=
  ⟨getLsbD_msbIndex h, fun _ hj => getLsbD_above_msbIndex h hj⟩

/-- Bit `j` of byte `i` is bit `8*i + j` of the pattern (R9). -/
theorem getLsbD_byteAt (p : Pattern) (i : ByteIndex) (j : Nat) :
    (byteAt p i).getLsbD j = (decide (j < 8) && p.getLsbD (8 * i.toNat + j)) := by
  simp [byteAt, BitVec.getLsbD_extractLsb']

theorem byteAt_ne_zero {p : Pattern} {i : ByteIndex} {j : Nat} (hj : j < 8) (h : p.getLsbD (8 * i.toNat + j) = true) :
    byteAt p i ≠ 0#8 := fun e => by
  have := getLsbD_byteAt p i j
  simp [e, hj, h] at this

theorem byteAt_eq_zero {p : Pattern} {i : ByteIndex} (h : ∀ j, 8 * i.toNat ≤ j → p.getLsbD j = false) :
    byteAt p i = 0#8 := BitVec.eq_of_getLsbD_eq fun j _ => by
  simp [getLsbD_byteAt, h (8 * i.toNat + j) (by omega)]

/-- The byte that holds the most-significant set bit is the most-significant non-zero byte (R123). -/
theorem highestByte_of_isTopBit {p : Pattern} {m : Nat} (h : IsTopBit p m) :
    highestByte p = BitVec.ofNat 2 (m / 8) := by
  have hlt := h.lt
  have hset : ∀ i : ByteIndex, i.toNat = m / 8 → byteAt p i ≠ 0#8 := fun i hi =>
    byteAt_ne_zero (j := m % 8) (by omega) (by rw [hi, Nat.div_add_mod]; exact h.1)
  have hclear : ∀ i : ByteIndex, m / 8 < i.toNat → byteAt p i = 0#8 := fun i hi =>
    byteAt_eq_zero fun j hj => h.2 j (by omega)
  have hcases : m / 8 = 0 ∨ m / 8 = 1 ∨ m / 8 = 2 ∨ m / 8 = 3 := by omega
  rcases hcases with e | e | e | e <;> rw [e] at hset hclear ⊢ <;> unfold highestByte
  · simp [hclear 3#2 (by decide), hclear 2#2 (by decide), hclear 1#2 (by decide)]
  · simp [hclear 3#2 (by decide), hclear 2#2 (by decide), hset 1#2 (by decide)]
  · simp [hclear 3#2 (by decide), hset 2#2 (by decide)]
  · simp [hset 3#2 (by decide)]

/-- Within that byte the most-significant set bit stands at `m % 8`. -/
theorem msbIndex_byteAt_highestByte {p : Pattern} {m : Nat} (h : IsTopBit p m) :
    msbIndex (byteAt p (highestByte p)) = m % 8 := by
  have hlt := h.lt
  have hb : (highestByte p).toNat = m / 8 := by
    rw [highestByte_of_isTopBit h, BitVec.toNat_ofNat]; omega
  refine Machine.msbIndex_eq ?_ fun j hj => ?_
  · simp [getLsbD_byteAt, hb, Nat.div_add_mod, h.1, Nat.mod_lt]
  · by_cases h8 : j < 8
    · simp [getLsbD_byteAt, hb, h.2 (8 * (m / 8) + j) (by omega)]
    · simp [getLsbD_byteAt, h8]

/-- The cursor masks, one bit each. -/
theorem ofNat_two_pow_mask (j : Nat) : BitVec.ofNat 8 (2 ^ j) = 1#8 <<< j := by
  apply BitVec.eq_of_toNat_eq
  simp [Nat.shiftLeft_eq]

theorem ofNat_two_pow_mask_ne_zero {j : Nat} (h : j < 8) : BitVec.ofNat 8 (2 ^ j) ≠ 0#8 := by
  interval_cases j <;> decide

/-- A byte masked by one bit is not 0 exactly where that bit is set. -/
theorem and_mask_ne_zero (v : BitVec 8) {j : Nat} (h : j < 8) :
    decide (v &&& BitVec.ofNat 8 (2 ^ j) ≠ 0#8) = v.getLsbD j := by
  have key : ∀ v : BitVec 8, ∀ j : Fin 8, decide (v &&& BitVec.ofNat 8 (2 ^ j.val) ≠ 0#8) = v.getLsbD j.val := by decide
  exact key v ⟨j, h⟩

/-- `lowBits t` is `2 ^ t - 1`. -/
theorem lowBits_eq (t : Nat) : lowBits t = 2 ^ t - 1 := by simp [lowBits, Nat.shiftLeft_eq]

/-- The encoder's low pattern has exactly its `t` lowest bits set, for `t` up to 32. -/
theorem getLsbD_lowBits {t : Nat} (h : t ≤ 32) (i : Nat) :
    (BitVec.ofNat 32 (lowBits t)).getLsbD i = decide (i < t) := by
  rw [lowBits_eq, BitVec.getLsbD_ofNat, Nat.testBit_two_pow_sub_one]
  by_cases hi : i < t <;> simp [hi]
  omega

/-- The pattern of a cadence cycle, bit by bit, for either layout. -/
theorem getLsbD_cadencePattern {t : Nat} (h : t ≤ 16) (layout : CadenceLayout) (i : Nat) :
    (cadencePattern layout t).getLsbD i =
      match layout with
      | .low => decide (i < t)
      | .high => decide (t ≤ i ∧ i < 2 * t) := by
  cases layout
  · exact getLsbD_lowBits (by omega) i
  · simp only [cadencePattern, BitVec.getLsbD_ofNat, Nat.testBit_shiftLeft, lowBits_eq, Nat.testBit_two_pow_sub_one]
    by_cases h1 : t ≤ i <;> by_cases h2 : i < 2 * t <;> simp [h1, h2] <;> omega

end Sys2Proof.Machine
end

