-- ==== Sys2Proof/Laws/Words.lean ====
section
/-! SUPPORT. The fields of a command word put together from them (30_encoding.md R75). -/

namespace Sys2Proof

variable (op : BitVec 2) (n : BitVec 8) (data : BitVec 32)

theorem getLsbD_requestWord (i : Nat) :
    (requestWord op n data).getLsbD i =
      if i < 32 then data.getLsbD i else if i - 32 < 8 then n.getLsbD (i - 32) else op.getLsbD (i - 32 - 8) := by
  simp only [requestWord, BitVec.getLsbD_append]

theorem op_requestWord : CommandWord.op (requestWord op n data) = op := by
  apply BitVec.eq_of_getLsbD_eq
  intro i hi
  rw [CommandWord.op, BitVec.getLsbD_extractLsb', getLsbD_requestWord]
  interval_cases i <;> simp

theorem count_requestWord : CommandWord.count (requestWord op n data) = n := by
  apply BitVec.eq_of_getLsbD_eq
  intro i hi
  rw [CommandWord.count, BitVec.getLsbD_extractLsb', getLsbD_requestWord]
  interval_cases i <;> simp

theorem pattern_requestWord : CommandWord.pattern (requestWord op n data) = data := by
  apply BitVec.eq_of_getLsbD_eq
  intro i hi
  rw [CommandWord.pattern, BitVec.getLsbD_extractLsb', getLsbD_requestWord]
  simp [hi]

theorem duration_requestWord : CommandWord.duration (requestWord op n data) = data.extractLsb' 0 16 := by
  apply BitVec.eq_of_getLsbD_eq
  intro i hi
  rw [CommandWord.duration, BitVec.getLsbD_extractLsb', getLsbD_requestWord, BitVec.getLsbD_extractLsb']
  simp [hi, show i < 32 by omega]

/-- Every command word is made of its own fields. -/
theorem requestWord_fields (cw : CommandWord) :
    requestWord (CommandWord.op cw) (CommandWord.count cw) (CommandWord.pattern cw) = cw := by
  apply BitVec.eq_of_getLsbD_eq
  intro i hi
  rw [getLsbD_requestWord, CommandWord.op, CommandWord.count, CommandWord.pattern]
  simp only [BitVec.getLsbD_extractLsb']
  by_cases h1 : i < 32
  · simp [h1]
  · by_cases h2 : i - 32 < 8
    · simp [h1, h2, show 32 + (i - 32) = i by omega]
    · simp [h1, h2, show 40 + (i - 32 - 8) = i by omega, show i - 32 - 8 < 2 by omega]

/-- A mask of a word is 0 exactly where no bit of both is set. -/
theorem and_eq_zero_iff {w : Nat} (x y : BitVec w) :
    x &&& y = 0#w ↔ ∀ i, i < w → y.getLsbD i = true → x.getLsbD i = false := by
  constructor
  · intro h i _ hy
    have := congrArg (fun v => v.getLsbD i) h
    simpa [hy] using this
  · intro h
    apply BitVec.eq_of_getLsbD_eq
    intro i hi
    have := h i hi
    cases hy : y.getLsbD i <;> simp_all

end Sys2Proof
end

