-- ==== Sys2Proof/Laws/PerInstr.lean ====
section
/-! SUPPORT. Statements made per constructor of Instr: its encoding is canonical. -/

namespace Sys2Proof.Laws

/-- The clock cycle that encodes an operation is canonical: one strobe, ignored operand bits 0 (R76, R82). -/
def EncodesCanonically.Statement (i : Instr) : Prop := (encode i).canonical = true

/-- A request's cycle is canonical when its fields hold 0 in the ignored bits of its operation code. -/
theorem canonical_requestCycle (op : BitVec 2) (n : BitVec 8) (data : BitVec 32)
    (h : ∀ i, i < 42 → (CommandWord.ignoredBits (requestWord op n data)).getLsbD i = true →
      (requestWord op n data).getLsbD i = false) :
    (requestCycle (requestWord op n data)).canonical = true :=
  decide_eq_true ((and_eq_zero_iff _ _).2 h)

theorem ignoredBits_requestWord (op : BitVec 2) (n : BitVec 8) (data : BitVec 32) :
    CommandWord.ignoredBits (requestWord op n data) =
      if op = 0b00#2 then 0x0FFFFFF0000#42
      else if op = 0b01#2 then 0x000FFFF0000#42
      else if op = 0b10#2 then 0x0FF00000000#42
      else 0x0FFFFFFFFFF#42 := by
  have h : BitVec.extractLsb' 40 2 (requestWord op n data) = op := op_requestWord op n data
  rw [CommandWord.ignoredBits, h]

theorem EncodesCanonically.beepDuration (d : Duration) : EncodesCanonically.Statement (.beepDuration d) := by
  refine canonical_requestCycle _ _ _ fun i hi h => ?_
  rw [ignoredBits_requestWord] at h
  rw [getLsbD_requestWord]
  interval_cases i <;> simp at h <;> simp

theorem EncodesCanonically.beepCadence (n : RepCount) (d : Duration) :
    EncodesCanonically.Statement (.beepCadence n d) := by
  refine canonical_requestCycle _ _ _ fun i hi h => ?_
  rw [ignoredBits_requestWord] at h
  rw [getLsbD_requestWord]
  interval_cases i <;> simp at h <;> simp

theorem EncodesCanonically.beepPattern (p : Pattern) : EncodesCanonically.Statement (.beepPattern p) := by
  refine canonical_requestCycle _ _ _ fun i hi h => ?_
  rw [ignoredBits_requestWord] at h
  rw [getLsbD_requestWord]
  interval_cases i <;> simp at h <;> simp

theorem EncodesCanonically.reservedOp3 : EncodesCanonically.Statement .reservedOp3 := (by decide : (encode .reservedOp3).canonical = true)

theorem EncodesCanonically.tick : EncodesCanonically.Statement .tick := (by decide : (encode .tick).canonical = true)

theorem EncodesCanonically.init : EncodesCanonically.Statement .init := (by decide : (encode .init).canonical = true)

end Sys2Proof.Laws
end

