-- ==== Sys2Proof/Laws/State.lean ====
section
/-! SUPPORT. The fields of a state after each unconditional update, one lemma per field. -/

namespace Sys2Proof.Machine

variable (request : Pattern × RepCount) (level : Level) (c : Cycle) (s : State)

@[simp] theorem pendWrite_pendPat : (pendWrite request s).pendPat = request.1 := rfl
@[simp] theorem pendWrite_pendRep : (pendWrite request s).pendRep = request.2 := rfl
@[simp] theorem pendWrite_actPat : (pendWrite request s).actPat = s.actPat := rfl
@[simp] theorem pendWrite_actRep : (pendWrite request s).actRep = s.actRep := rfl
@[simp] theorem pendWrite_curByte : (pendWrite request s).curByte = s.curByte := rfl
@[simp] theorem pendWrite_curMask : (pendWrite request s).curMask = s.curMask := rfl
@[simp] theorem pendWrite_out : (pendWrite request s).out = s.out := rfl
@[simp] theorem pendWrite_inputs : (pendWrite request s).inputs = s.inputs := rfl
@[simp] theorem pendWrite_cadenceLayout : (pendWrite request s).cadenceLayout = s.cadenceLayout := rfl

@[simp] theorem setLevel_pendPat : (setLevel level s).pendPat = s.pendPat := rfl
@[simp] theorem setLevel_pendRep : (setLevel level s).pendRep = s.pendRep := rfl
@[simp] theorem setLevel_actPat : (setLevel level s).actPat = s.actPat := rfl
@[simp] theorem setLevel_actRep : (setLevel level s).actRep = s.actRep := rfl
@[simp] theorem setLevel_curByte : (setLevel level s).curByte = s.curByte := rfl
@[simp] theorem setLevel_curMask : (setLevel level s).curMask = s.curMask := rfl
@[simp] theorem setLevel_out : (setLevel level s).out = level := rfl
@[simp] theorem setLevel_inputs : (setLevel level s).inputs = s.inputs := rfl
@[simp] theorem setLevel_cadenceLayout : (setLevel level s).cadenceLayout = s.cadenceLayout := rfl

@[simp] theorem locateCursor_pendPat : (locateCursor s).pendPat = s.pendPat := rfl
@[simp] theorem locateCursor_pendRep : (locateCursor s).pendRep = s.pendRep := rfl
@[simp] theorem locateCursor_actPat : (locateCursor s).actPat = s.actPat := rfl
@[simp] theorem locateCursor_actRep : (locateCursor s).actRep = s.actRep := rfl
@[simp] theorem locateCursor_curByte : (locateCursor s).curByte = highestByte s.actPat := rfl
@[simp] theorem locateCursor_curMask :
    (locateCursor s).curMask = 1#8 <<< msbIndex (byteAt s.actPat (highestByte s.actPat)) := rfl
@[simp] theorem locateCursor_out : (locateCursor s).out = s.out := rfl
@[simp] theorem locateCursor_inputs : (locateCursor s).inputs = s.inputs := rfl
@[simp] theorem locateCursor_cadenceLayout : (locateCursor s).cadenceLayout = s.cadenceLayout := rfl

@[simp] theorem present_pendPat : (s.present c).pendPat = s.pendPat := rfl
@[simp] theorem present_pendRep : (s.present c).pendRep = s.pendRep := rfl
@[simp] theorem present_actPat : (s.present c).actPat = s.actPat := rfl
@[simp] theorem present_actRep : (s.present c).actRep = s.actRep := rfl
@[simp] theorem present_curByte : (s.present c).curByte = s.curByte := rfl
@[simp] theorem present_curMask : (s.present c).curMask = s.curMask := rfl
@[simp] theorem present_out : (s.present c).out = s.out := rfl
@[simp] theorem present_inputs : (s.present c).inputs = c :: s.inputs := rfl
@[simp] theorem present_cadenceLayout : (s.present c).cadenceLayout = s.cadenceLayout := rfl

end Sys2Proof.Machine
end

