-- ==== Sys2Proof/Laws/Playback.lean ====
section
/-! SUPPORT. What each step of the Playback Engine can do, said once, for the proofs to cite instead of unfolding it. -/

namespace Sys2Proof.Machine

/-- The pick-up either transfers the waiting request of an Idle engine or does nothing (R121). -/
theorem pickUp_cases (s : State) :
    (s.actRep = 0#8 ∧ s.pendRep ≠ 0#8 ∧ pickUp s = { s with actPat := s.pendPat, actRep := s.pendRep, pendRep := 0#8 }) ∨
    ((s.actRep ≠ 0#8 ∨ s.pendRep = 0#8) ∧ pickUp s = s) := by
  by_cases h1 : s.actRep = 0#8 <;> by_cases h2 : s.pendRep = 0#8 <;>
    simp [pickUp, State.engIdle, State.pendEmpty, h1, h2]

theorem pickUp_of_waiting {s : State} (h : s.actRep = 0#8) (hp : s.pendRep ≠ 0#8) :
    pickUp s = { s with actPat := s.pendPat, actRep := s.pendRep, pendRep := 0#8 } := by
  simp [pickUp, State.engIdle, State.pendEmpty, h, hp]

theorem pickUp_of_playing {s : State} (h : s.actRep ≠ 0#8) : pickUp s = s := by
  simp [pickUp, State.engIdle, h]

theorem pickUp_of_empty {s : State} (h : s.pendRep = 0#8) : pickUp s = s := by
  simp [pickUp, State.pendEmpty, h]

/-- The zero test either forces the count to 0 or does nothing (R122). -/
theorem resolveZero_cases (s : State) :
    (s.actRep ≠ 0#8 ∧ s.actPat = 0#32 ∧ resolveZero s = { s with actRep := 0#8 }) ∨
    ((s.actRep = 0#8 ∨ s.actPat ≠ 0#32) ∧ resolveZero s = s) := by
  by_cases h1 : s.actRep = 0#8 <;> by_cases h2 : s.actPat = 0#32 <;> simp [resolveZero, State.engPlaying, h1, h2]

theorem resolveZero_of_zero {s : State} (h : s.actPat = 0#32) : resolveZero s = { s with actRep := 0#8 } := by
  by_cases h1 : s.actRep = 0#8
  · simp only [resolveZero, State.engPlaying, h1]
    cases s
    simp_all
  · simp [resolveZero, State.engPlaying, h, h1]

theorem resolveZero_of_ne_zero {s : State} (h : s.actPat ≠ 0#32) : resolveZero s = s := by
  simp [resolveZero, h]

theorem resolveZero_of_idle {s : State} (h : s.actRep = 0#8) : resolveZero s = s := by
  simp [resolveZero, State.engPlaying, h]

/-- The cursor of flat position `k`: byte `k / 8`, bit `k % 8` (R23). -/
def CursorAt (s : State) (k : Nat) : Prop :=
  k < 32 ∧ s.curByte = BitVec.ofNat 2 (k / 8) ∧ s.curMask = BitVec.ofNat 8 (2 ^ (k % 8))

/-- Location puts the cursor at the most-significant set bit (R123). -/
theorem locateCursor_of_isTopBit {s : State} {m : Nat} (h : IsTopBit s.actPat m) :
    locateCursor s = { s with curByte := BitVec.ofNat 2 (m / 8), curMask := BitVec.ofNat 8 (2 ^ (m % 8)) } := by
  rw [locateCursor, msbIndex_byteAt_highestByte h, highestByte_of_isTopBit h, ofNat_two_pow_mask]

theorem locateCursor_cursorAt {s : State} {m : Nat} (h : IsTopBit s.actPat m) : CursorAt (locateCursor s) m := by
  rw [locateCursor_of_isTopBit h]
  exact ⟨h.lt, rfl, rfl⟩

/-- Advancing moves the cursor from flat position `k` to `k - 1`, or ends the repetition at 0 (R125 to R127). -/
theorem advanceCursor_of_cursorAt {s : State} {k : Nat} (h : CursorAt s k) :
    advanceCursor s = if k = 0 then { s with curMask := 0#8, actRep := s.actRep - 1#8 }
      else { s with curByte := BitVec.ofNat 2 ((k - 1) / 8), curMask := BitVec.ofNat 8 (2 ^ ((k - 1) % 8)) } := by
  obtain ⟨hk, hb, hm⟩ := h
  cases s
  simp only at hb hm
  subst hb hm
  interval_cases k <;> simp [advanceCursor]

/-- Advancing shifts the mask, moves to the byte below, or ends the repetition (R125 to R127), in any state. -/
theorem advanceCursor_cases (s : State) :
    advanceCursor s = { s with curMask := s.curMask >>> 1 } ∨
    advanceCursor s = { s with curByte := s.curByte - 1#2, curMask := 0x80#8 } ∨
    advanceCursor s = { s with curMask := 0#8, actRep := s.actRep - 1#8 } := by
  unfold advanceCursor
  split
  · exact .inl rfl
  · split
    · exact .inr (.inl rfl)
    · exact .inr (.inr rfl)

/-- The level at flat position `k` is bit `k` of the active pattern (R124). -/
theorem cursorLevel_of_cursorAt {s : State} {k : Nat} (h : CursorAt s k) :
    cursorLevel s = Level.ofBit (s.actPat.getLsbD k) := by
  obtain ⟨hk, hb, hm⟩ := h
  rw [cursorLevel, hm, and_mask_ne_zero _ (Nat.mod_lt k (by decide)), getLsbD_byteAt, hb, BitVec.toNat_ofNat]
  have h8 : 8 * (k / 8 % 2 ^ 2) + k % 8 = k := by omega
  rw [h8]
  simp [Nat.mod_lt]

theorem CursorAt.curMask_ne_zero {s : State} {k : Nat} (h : CursorAt s k) : s.curMask ≠ 0#8 := by
  rw [h.2.2]
  exact ofNat_two_pow_mask_ne_zero (Nat.mod_lt k (by decide))

theorem CursorAt.pos_eq {s : State} {k : Nat} (h : CursorAt s k) : s.pos = k := by
  obtain ⟨hk, hb, hm⟩ := h
  rw [State.pos, hb, hm]
  interval_cases k <;> decide

/-- A valid cursor of a state that meets the invariants stands at its flat position (R32, R33). -/
theorem State.Inv.cursorAt {s : State} (h : s.Inv) (hm : s.curMask ≠ 0#8) : CursorAt s s.pos := by
  obtain ⟨-, -, h3, -⟩ := h
  obtain ⟨j, hj⟩ := h3.resolve_left hm
  have hmsb : msbIndex s.curMask = j.val := by
    rw [hj]
    exact (by decide : ∀ i : Fin 8, msbIndex (1#8 <<< i.val) = i.val) j
  have hbyte := s.curByte.isLt
  have hdiv : s.pos / 8 = s.curByte.toNat := by rw [State.pos, hmsb]; omega
  have hmod : s.pos % 8 = j.val := by rw [State.pos, hmsb]; omega
  refine ⟨by rw [State.pos, hmsb]; omega, ?_, ?_⟩
  · rw [hdiv, BitVec.ofNat_toNat, BitVec.setWidth_eq]
  · rw [hmod, ofNat_two_pow_mask, hj]

/-- A Playing engine either starts its repetition again or plays the bit at its cursor. -/
theorem play_cases (s : State) :
    (s.curMask = 0#8 ∧ play s = (advanceCursor (locateCursor s), .on)) ∨
    (s.curMask ≠ 0#8 ∧ play s = (advanceCursor s, cursorLevel s)) := by
  by_cases h : s.curMask = 0#8 <;> simp [play, State.curValid, h]

theorem tick_of_playing {s : State} (h : s.actRep ≠ 0#8) (hp : s.actPat ≠ 0#32) :
    tick s = (setLevel (play s).2 (play s).1, (play s).2) := by
  simp [tick, engineStep, pickUp_of_playing h, resolveZero_of_ne_zero hp, State.engPlaying, h]

theorem tick_of_waiting {s : State} (h : s.actRep = 0#8) (hr : s.pendRep ≠ 0#8) (hp : s.pendPat ≠ 0#32) :
    tick s =
      (setLevel (play { s with actPat := s.pendPat, actRep := s.pendRep, pendRep := 0#8 }).2
        (play { s with actPat := s.pendPat, actRep := s.pendRep, pendRep := 0#8 }).1,
       (play { s with actPat := s.pendPat, actRep := s.pendRep, pendRep := 0#8 }).2) := by
  have hz : resolveZero { s with actPat := s.pendPat, actRep := s.pendRep, pendRep := 0#8 } =
      { s with actPat := s.pendPat, actRep := s.pendRep, pendRep := 0#8 } := resolveZero_of_ne_zero (by simpa using hp)
  simp [tick, engineStep, pickUp_of_waiting h hr, hz, State.engPlaying, hr]

theorem tick_of_waiting_zero {s : State} (h : s.actRep = 0#8) (hr : s.pendRep ≠ 0#8) (hp : s.pendPat = 0#32) :
    tick s = ({ s with actPat := 0#32, actRep := 0#8, pendRep := 0#8, out := .off }, .off) := by
  simp [tick, engineStep, pickUp_of_waiting h hr, hp, resolveZero_of_zero, State.engPlaying, setLevel]

theorem tick_of_idle {s : State} (h : s.actRep = 0#8) (hr : s.pendRep = 0#8) : tick s = (setLevel .off s, .off) := by
  simp [tick, engineStep, pickUp_of_empty hr, resolveZero_of_idle h, State.engPlaying, h]

end Sys2Proof.Machine
end

