-- ==== Sys2Proof/Laws/Step.lean ====
section
/-! SUPPORT. What the sampling of inputs and the running of events can do, said once. -/

namespace Sys2Proof.Machine

theorem sampleInputs_nil {s : State} (h : s.inputs = []) : sampleInputs s = (Cycle.idle, s) := by
  rw [sampleInputs, h]

theorem sampleInputs_cons {s : State} {c : Cycle} {rest : List Cycle} (h : s.inputs = c :: rest) :
    sampleInputs s = (c, { s with inputs := rest }) := by
  rw [sampleInputs, h]

/-- Presenting port values and sampling them gives them back, and the state without them. -/
theorem sampleInputs_present (c : Cycle) (s : State) : sampleInputs (s.present c) = (c, s) := rfl

/-- A clock cycle in which the agents drive `c` does what `c` asks for, on the state as it was. -/
theorem step_present (c : Cycle) (s : State) : step (s.present c) = clockCycle c s := rfl

/-- The step that a table row's bits are presented to is the clock cycle they stand for. -/
theorem step_withFetchWord {nbits w : Nat} {c : Cycle} (h : tableCycle nbits w = .ok c) (s : State) :
    step (s.withFetchWord nbits w) = clockCycle c s := by
  rw [State.withFetchWord, presentTableWord, h]
  exact step_present c s

section chain

variable (f g : State → Host.Outcome State Fault Refusal)

@[simp] theorem chain_next (s : State) : chain (.next s) f = f s := rfl
@[simp] theorem chain_fault (r : Fault) : chain (.fault r) f = .fault r := rfl
@[simp] theorem chain_refused (r : Refusal) : chain (.refused r) f = .refused r := rfl

@[simp] theorem chain_pure (o : Host.Outcome State Fault Refusal) : chain o .next = o := by
  cases o <;> rfl

theorem chain_assoc (o : Host.Outcome State Fault Refusal) :
    chain (chain o f) g = chain o (fun s => chain (f s) g) := by
  cases o <;> rfl

/-- A chain that answers a next state went through a next state of its first part. -/
theorem chain_eq_next {o : Host.Outcome State Fault Refusal} {u : State} (h : chain o f = .next u) :
    ∃ t, o = .next t ∧ f t = .next u := by
  cases o with
  | next t => exact ⟨t, rfl, h⟩
  | fault r => cases h
  | refused r => cases h

end chain

/-- A run of events that answers a next state went through a next state of its first event. -/
theorem runEvents_cons_next {i : Instr} {rest : List Instr} {s u : State} (h : runEvents (i :: rest) s = .next u) :
    ∃ t, exec i s = .next t ∧ runEvents rest t = .next u :=
  chain_eq_next _ h

theorem runEvents_singleton (i : Instr) (s : State) : runEvents [i] s = exec i s := chain_pure _

/-- A run of two lists of events is the run of the second on what the run of the first leaves. -/
theorem runEvents_append (es fs : List Instr) (s : State) :
    runEvents (es ++ fs) s = chain (runEvents es s) (runEvents fs) := by
  induction es generalizing s with
  | nil => rfl
  | cons i rest ih =>
    rw [List.cons_append, runEvents, runEvents, chain_assoc]
    exact congrArg (chain (exec i s)) (funext ih)

/-- A request writes some pair into the slot and nothing else. -/
theorem exec_request_cases {i : Instr} (h : i.isRequest = true) (s : State) :
    ∃ request, exec i s = .next (pendWrite request s) := by
  cases i with
  | beepDuration d => exact ⟨_, rfl⟩
  | beepCadence n d => exact ⟨_, rfl⟩
  | beepPattern p => exact ⟨_, rfl⟩
  | reservedOp3 => cases h
  | tick => cases h
  | init => cases h

end Sys2Proof.Machine
end

