-- ==== Sys2Proof/Laws/Run.lean ====
section
/-! SUPPORT. One step more of a run, finite or infinite, said once. -/

namespace Sys2Proof.Machine

@[simp] theorem observe_level (i : Instr) (t : State) : (observe i t).level = if i = .tick then some t.out else none := rfl
@[simp] theorem observe_busy (i : Instr) (t : State) : (observe i t).busy = t.busy := rfl

@[simp] theorem observations_nil (s : State) : observations [] s = [] := rfl

theorem observations_cons {i : Instr} {s t : State} (h : exec i s = .next t) (rest : List Instr) :
    observations (i :: rest) s = observe i t :: observations rest t := by
  rw [observations, h]

@[simp] theorem eventLevels_nil (s : State) : eventLevels [] s = [] := rfl

theorem eventLevels_cons_tick {s t : State} (h : exec .tick s = .next t) (rest : List Instr) :
    eventLevels (.tick :: rest) s = t.out :: eventLevels rest t := by
  simp [eventLevels, observations_cons h]

theorem eventLevels_cons_of_ne_tick {i : Instr} {s t : State} (hi : i ≠ .tick) (h : exec i s = .next t)
    (rest : List Instr) : eventLevels (i :: rest) s = eventLevels rest t := by
  simp [eventLevels, observations_cons h, hi]

@[simp] theorem runSteps_zero (s : State) : runSteps 0 s = .next s := rfl

theorem runSteps_succ (k : Nat) (s : State) : runSteps (k + 1) s = chain (step s) (runSteps k) := rfl

theorem runSteps_succ_present (k : Nat) (c : Cycle) (s : State) :
    runSteps (k + 1) (s.present c) = chain (clockCycle c s) (runSteps k) := rfl

@[simp] theorem streamState_zero (events : Nat → Instr) (s : State) : streamState events s 0 = .next s := rfl

theorem streamState_succ (events : Nat → Instr) (s : State) (k : Nat) :
    streamState events s (k + 1) = chain (streamState events s k) (exec (events k)) := rfl

theorem streamObservation_of_next {events : Nat → Instr} {s t : State} {k : Nat}
    (h : streamState events s (k + 1) = .next t) : streamObservation events s k = some (observe (events k) t) := by
  rw [streamObservation, h]

@[simp] theorem clockedState_zero (cycles : Nat → Cycle) (s : State) : clockedState cycles s 0 = .next s := rfl

theorem clockedState_succ (cycles : Nat → Cycle) (s : State) (k : Nat) :
    clockedState cycles s (k + 1) = chain (clockedState cycles s k) (clockCycle (cycles k)) := rfl

end Sys2Proof.Machine
end

