-- ==== Sys2Proof/Tests/Slice0.lean ====
section
/-! SUPPORT. Tests. Expected values are the spec's: the encodings of 30_encoding.md R75 and R76, the vectors of
95_test_vectors.md, or a hand reading of the rule a comment names. Then a witness for each statement with hypotheses. -/

namespace Sys2Proof.Tests

open Sys2Proof.Machine

/-- The next state of an outcome, where it has one. -/
def after (o : Host.Outcome State Fault Refusal) : Option State :=
  match o with
  | .next t => some t
  | .fault _ => none
  | .refused _ => none

/-- A state by its pending pair, active pair, cursor and level, no inputs waiting, layout LOW. -/
def st (pend : Pattern × RepCount) (act : Pattern × RepCount) (cur : ByteIndex × CursorMask) (out : Level) : State where
  pendPat := pend.1
  pendRep := pend.2
  actPat := act.1
  actRep := act.2
  curByte := cur.1
  curMask := cur.2
  out := out
  inputs := []
  cadenceLayout := .low

/-! ## WellFormed smoke tests: each check of `canonical` refuses -/

theorem test_canonical_accepts : CommandWord.canonical 0x1030000007D#42 = true := by decide
theorem test_canonical_refuses_duration_count : CommandWord.canonical 0x0FF0000007D#42 = false := by decide
theorem test_canonical_refuses_cadence_high_data : CommandWord.canonical 0x1030ABC007D#42 = false := by decide
theorem test_canonical_refuses_pattern_count : CommandWord.canonical 0x2AB00000005#42 = false := by decide
theorem test_canonical_refuses_reserved_bits : CommandWord.canonical 0x30000000001#42 = false := by decide
theorem test_canonical_refuses_no_strobe : Cycle.idle.canonical = false := by decide
theorem test_canonical_refuses_tick_and_rst :
    ({ rst := true, tick := true, reqValid := false, reqCw := 0#42 } : Cycle).canonical = false := by decide
theorem test_canonical_refuses_tick_and_request :
    ({ rst := false, tick := true, reqValid := true, reqCw := 5#42 } : Cycle).canonical = false := by decide
theorem test_canonical_refuses_rst_and_request :
    ({ rst := true, tick := false, reqValid := true, reqCw := 5#42 } : Cycle).canonical = false := by decide
theorem test_canonical_refuses_all_strobes :
    ({ rst := true, tick := true, reqValid := true, reqCw := 5#42 } : Cycle).canonical = false := by decide
theorem test_canonical_refuses_word_without_request :
    ({ rst := false, tick := true, reqValid := false, reqCw := 5#42 } : Cycle).canonical = false := by decide
theorem test_canonical_refuses_word_with_rst :
    ({ rst := true, tick := false, reqValid := false, reqCw := 5#42 } : Cycle).canonical = false := by decide
theorem test_canonical_refuses_request_with_ignored_bits :
    ({ rst := false, tick := false, reqValid := true, reqCw := 0x2AB00000005#42 } : Cycle).canonical = false := by decide

/-! ## Decoding: op (2 bits), n (8), data (32), written out from R75 -/

/-- op 00, n ignored, data[31:16] ignored, d = 125. -/
theorem test_decode_duration :
    decodeWord 0b00_10100101_1111000011110000_0000000001111101#42 = .beepDuration 125 := by decide

/-- op 01, n = 3, data[31:16] ignored, d = 125. -/
theorem test_decode_cadence :
    decodeWord 0b01_00000011_0000101010111100_0000000001111101#42 = .beepCadence 3 125 := by decide

/-- op 10, n ignored, p = 0x80000001. -/
theorem test_decode_pattern :
    decodeWord 0b10_10101011_10000000000000000000000000000001#42 = .beepPattern 0x80000001 := by decide

/-- op 11, all other bits ignored (V4). -/
theorem test_decode_reserved :
    decodeWord 0b11_11111111_11111111111111111111111111111111#42 = .reservedOp3 := by decide

/-- R74: `tick` alone. -/
theorem test_decode_tick :
    decodeCycle { rst := false, tick := true, reqValid := false, reqCw := 0x3FFFFFFFFFF#42 } = [.tick] := by decide

/-- R74: `rst` wins over the other two strobes. -/
theorem test_decode_init :
    decodeCycle { rst := true, tick := true, reqValid := true, reqCw := 5#42 } = [.init] := by decide

/-- R74: TICK before the request of the same cycle. -/
theorem test_decode_tick_then_request :
    decodeCycle { rst := false, tick := true, reqValid := true, reqCw := 0x20000000005#42 } =
      [.tick, .beepPattern 5] := by decide

/-- The canonical encodings of P4 and P3. -/
theorem test_encode_cadence : encodeWord (.beepCadence 3 125) = some 0x1030000007D#42 := by decide
theorem test_encode_pattern : encodeWord (.beepPattern 0x500) = some 0x20000000500#42 := by decide

theorem test_table_word : decodeTableWord 48 0x1FF000003E8 = some (.beepCadence 255 1000) := by decide
theorem test_table_strobes : decodeTableWord 8 1 = some .tick ∧ decodeTableWord 8 2 = some .init := by decide
theorem test_table_rejects_width : tableCycle 16 0 = .error .unknownWidth := by rfl
theorem test_table_rejects_high_bits : tableCycle 48 0x40000000000 = .error .aboveCommandWord := by rfl
theorem test_table_rejects_no_strobe : tableCycle 8 0 = .error .noStrobe := by rfl

/-! ## One operation each -/

/-- V1, d = 1999 and d = 2000: the last duration in range, and the first saturated one. -/
theorem test_duration_largest_in_range :
    (after (exec (.beepDuration 1999) State.reset)).map (·.pendPat) = some 0x7FFFFFFF := by decide
theorem test_duration_saturates :
    (after (exec (.beepDuration 2000) State.reset)).map (·.pendPat) = some 0xFFFFFFFF := by decide

/-- V2, `3, 125`, under LOW and under HIGH. -/
theorem test_cadence_low :
    (after (exec (.beepCadence 3 125) State.reset)).map (fun t => (t.pendPat, t.pendRep)) = some (0x00000003, 3) := by
  decide
theorem test_cadence_high :
    (after (exec (.beepCadence 3 125) { State.reset with cadenceLayout := .high })).map (fun t => (t.pendPat, t.pendRep)) =
      some (0x0000000C, 3) := by decide

/-- V6, row 2: the slot is overwritten; row 4: the active pattern is not. -/
theorem test_pattern_overwrites :
    after (exec (.beepPattern 5) (st (3, 1) (0, 0) (0, 0) .off)) = some (st (5, 1) (0, 0) (0, 0) .off) := by decide
theorem test_pattern_leaves_active :
    after (exec (.beepPattern 0) (st (0xFF, 1) (6, 1) (0, 2) .on)) = some (st (0, 1) (6, 1) (0, 2) .on) := by decide

/-- V4: the reserved code changes nothing. -/
theorem test_reserved :
    after (exec .reservedOp3 (st (3, 1) (6, 1) (0, 2) .on)) = some (st (3, 1) (6, 1) (0, 2) .on) := by decide

/-- V5, T3 with the located bit at a byte's bit 0, and T9 with the slot full. -/
theorem test_tick_picks_up :
    after (exec .tick (st (0x100, 1) (0, 0) (0, 0) .off)) = some (st (0x100, 0) (0x100, 1) (0, 0x80) .on) := by decide
theorem test_tick_ends_without_pick_up :
    after (exec .tick (st (5, 1) (3, 1) (0, 1) .on)) = some (st (5, 1) (3, 0) (0, 0) .on) := by decide

/-- V7. -/
theorem test_init : after (exec .init (st (5, 1) (0xFF, 1) (0, 0x20) .on)) = some State.reset := by decide

/-- P7, event 2: TICK and a request in one clock cycle. -/
theorem test_step_tick_and_request :
    after (step { st (3, 1) (0, 0) (0, 0) .off with
      inputs := [{ rst := false, tick := true, reqValid := true, reqCw := 0x20000000005#42 }] }) =
      some (st (5, 1) (3, 1) (0, 1) .on) := by decide

/-- The host's reading: a table word presented to the reset state runs its instruction first. -/
theorem test_first_instruction_after_reset :
    after (step (State.reset.withFetchWord 48 0x0000000007D)) = some (st (3, 1) (0, 0) (0, 0) .off) := by decide

/-- R153: the encoding of the port `out`. -/
theorem test_out_port : (st (0, 0) (0, 0) (0, 0) .on).outPort = 1#1 ∧ State.reset.outPort = 0#1 := by decide

/-- P1, events 3 and 4, and V7: the level of each TICK and `busy` after each event. -/
theorem test_observations :
    observations [.tick, .tick, .init] (st (3, 0) (3, 1) (0, 1) .on) =
      [⟨some .on, false⟩, ⟨some .off, false⟩, ⟨none, false⟩] := by decide

/-- P1, events 1 and 2, as the start of an infinite run: `busy` is 1 after each. -/
theorem test_stream_observation :
    streamObservation (fun k => if k = 0 then .beepDuration 125 else .tick) State.reset 0 = some ⟨none, true⟩ ∧
      streamObservation (fun k => if k = 0 then .beepDuration 125 else .tick) State.reset 1 = some ⟨some .on, true⟩ := by
  decide

/-! ## Witnesses: for each statement with hypotheses, values that meet them together -/

/-- Idle, a request of eleven ticks waiting. -/
def waiting : State := st (0x500, 1) (0, 0) (0, 0) .off

/-- Idle, the request (1, 2) waiting: the boundary `m = 0`. -/
def waitingOne : State := st (1, 2) (0, 0) (0, 0) .off

/-- Playing 0x500, cursor at bit 8. -/
def playing : State := st (0xFF, 9) (0x500, 2) (1, 1) .off

/-- Playing the last bit of the last repetition, a request waiting. -/
def ending : State := st (5, 1) (3, 1) (0, 1) .on

/-- The clock cycle of P7, event 2. -/
def tickAndRequest : Cycle := { rst := false, tick := true, reqValid := true, reqCw := 0x20000000005#42 }

theorem isTopBit_of_eq {p : Pattern} {m : Nat} (hp : p ≠ 0#32) (h : msbIndex p = m) : IsTopBit p m :=
  h ▸ isTopBit_msbIndex hp

theorem witness_EncodeOfDecodeIsCanonicalWord : CommandWord.canonical 0x1FF0000FFFF#42 = true := by decide

theorem witness_StepRunsDecodedInstruction :
    ({ waiting with inputs := [encode .tick] } : State).inputs = encode .tick :: [] ∧
      decodeCycle (encode .tick) = [.tick] := by decide

theorem witness_TableWordRunsItsInstruction :
    decodeTableWord 48 0x3FFFFFFFFFF = some .reservedOp3 ∧ decodeTableWord 8 3 = some .init := by decide

theorem witness_ClockCycleOrdersItsEvents :
    ({ waiting with inputs := [tickAndRequest] } : State).inputs = tickAndRequest :: [] ∧
      tickAndRequest.rst = false ∧ tickAndRequest.tick = true ∧ tickAndRequest.reqValid = true := by decide
theorem witness_ClockCycleOrdersItsEvents_init :
    ({ waiting with inputs := [encode .init] } : State).inputs = encode .init :: [] ∧
      (encode .init).rst = true := by decide
theorem witness_ClockCycleOrdersItsEvents_tick :
    ({ waiting with inputs := [encode .tick] } : State).inputs = encode .tick :: [] ∧
      (encode .tick).rst = false ∧ (encode .tick).tick = true ∧ (encode .tick).reqValid = false := by decide
theorem witness_ClockCycleOrdersItsEvents_request :
    ({ waiting with inputs := [encode .reservedOp3] } : State).inputs = encode .reservedOp3 :: [] ∧
      (encode .reservedOp3).rst = false ∧ (encode .reservedOp3).tick = false ∧
      (encode .reservedOp3).reqValid = true := by decide
theorem witness_ClockCycleOrdersItsEvents_idle :
    ({ waiting with inputs := [Cycle.idle] } : State).inputs = Cycle.idle :: [] ∧
      Cycle.idle.rst = false ∧ Cycle.idle.tick = false ∧ Cycle.idle.reqValid = false := by decide

theorem witness_StepWithoutInputsIsIdle : waiting.inputs = [] := by decide

theorem witness_SameCycleRefillKeepsBothRequests :
    ({ waiting with inputs := [tickAndRequest] } : State).inputs =
        { rst := false, tick := true, reqValid := true, reqCw := 0x20000000005#42 } :: [] ∧
      (decodeWord 0x20000000005#42).isRequest = true ∧ waiting.actRep = 0#8 ∧ waiting.curMask = 0#8 ∧
      waiting.pendRep ≠ 0#8 ∧ waiting.pendPat ≠ 0#32 := by decide

theorem witness_RequestsWriteSlotUnconditionally :
    (Instr.beepCadence 255 1062).isRequest = true ∧ playing.cadenceLayout = .low ∧
      ({ playing with inputs := [encode (.beepCadence 255 1062)] } : State).inputs =
        encode (.beepCadence 255 1062) :: [] := by decide

theorem witness_DurationLawAndMonotone :
    after (exec (.beepDuration 1999) playing) = some { playing with pendPat := 0x7FFFFFFF, pendRep := 1 } ∧
      inCallerRange (.beepDuration 1999) = true ∧ (62 : Duration) ≤ 63 ∧
      after (exec (.beepDuration 62) playing) = some { playing with pendPat := 0, pendRep := 1 } ∧
      after (exec (.beepDuration 63) playing) = some { playing with pendPat := 1, pendRep := 1 } := by decide

theorem witness_BeepDurationSaturates :
    32 ≤ (2000 : Duration).toNat * 16 / 1000 ∧ 62 < (63 : Duration).toNat ∧ (63 : Duration) ≤ 65535 ∧
      after (exec (.beepDuration 63) playing) = some { playing with pendPat := 1, pendRep := 1 } ∧
      after (exec (.beepDuration 65535) playing) = some { playing with pendPat := 0xFFFFFFFF, pendRep := 1 } := by decide

theorem witness_BeepCadenceWritesSlot_low : playing.cadenceLayout = .low := by decide
theorem witness_BeepCadenceWritesSlot_high :
    ({ playing with cadenceLayout := .high } : State).cadenceLayout = .high := by decide

theorem witness_BeepCadenceClamps_low : 1000 ≤ (1000 : Duration).toNat ∧ playing.cadenceLayout = .low := by decide
theorem witness_BeepCadenceClamps_high :
    1000 ≤ (65535 : Duration).toNat ∧ ({ playing with cadenceLayout := .high } : State).cadenceLayout = .high := by decide

theorem witness_ReservedCodeIsIgnored : 0x30000000000 ≤ (0x30000000000#42).toNat := by decide

theorem witness_ShortDurationsEncodeZeroPattern : (62 : Duration).toNat ≤ 62 := by decide

theorem witness_LaterRequestDecidesSlot :
    (Instr.beepDuration 125).isRequest = true ∧ (Instr.beepPattern 5).isRequest = true ∧
      ∀ m, m < 2 → (tickTimes m playing).actRep ≠ 0#8 := by decide

theorem witness_CadenceZeroCancelsPendingRequest : waiting.actRep = 0#8 := by decide

theorem witness_IdleTicksAreAFixedPoint : State.reset.actRep = 0#8 ∧ State.reset.pendRep = 0#8 := by decide

theorem witness_TickResolvesZeroPattern_waiting :
    (st (0, 7) (3, 0) (0, 0) .on).actRep = 0#8 ∧ (st (0, 7) (3, 0) (0, 0) .on).pendRep ≠ 0#8 ∧
      (st (0, 7) (3, 0) (0, 0) .on).pendPat = 0#32 := by decide
theorem witness_TickResolvesZeroPattern_active :
    (st (5, 1) (0, 255) (0, 0) .on).actRep ≠ 0#8 ∧ (st (5, 1) (0, 255) (0, 0) .on).actPat = 0#32 := by decide

theorem witness_TickPicksUpRequest :
    waiting.actRep = 0#8 ∧ waiting.curMask = 0#8 ∧ waiting.pendRep ≠ 0#8 ∧ IsTopBit waiting.pendPat 10 :=
  ⟨by decide, by decide, by decide, isTopBit_of_eq (by decide) (by decide)⟩
theorem witness_TickPicksUpRequest_zero :
    waitingOne.actRep = 0#8 ∧ waitingOne.curMask = 0#8 ∧ waitingOne.pendRep ≠ 0#8 ∧ IsTopBit waitingOne.pendPat 0 :=
  ⟨by decide, by decide, by decide, isTopBit_of_eq (by decide) (by decide)⟩

theorem witness_TickRestartsRepetition :
    (st (5, 1) (0x80000001, 2) (0, 0) .on).actRep ≠ 0#8 ∧ (st (5, 1) (0x80000001, 2) (0, 0) .on).curMask = 0#8 ∧
      IsTopBit (st (5, 1) (0x80000001, 2) (0, 0) .on).actPat 31 :=
  ⟨by decide, by decide, isTopBit_of_eq (by decide) (by decide)⟩
theorem witness_TickRestartsRepetition_zero :
    (st (5, 1) (1, 2) (0, 0) .on).actRep ≠ 0#8 ∧ (st (5, 1) (1, 2) (0, 0) .on).curMask = 0#8 ∧
      IsTopBit (st (5, 1) (1, 2) (0, 0) .on).actPat 0 :=
  ⟨by decide, by decide, isTopBit_of_eq (by decide) (by decide)⟩

theorem witness_TickPlaysBitAtCursor :
    playing.actRep ≠ 0#8 ∧ playing.actPat ≠ 0#32 ∧ 8 < 32 ∧ playing.curByte = BitVec.ofNat 2 (8 / 8) ∧
      playing.curMask = BitVec.ofNat 8 (2 ^ (8 % 8)) := by decide
theorem witness_TickPlaysBitAtCursor_zero :
    ending.actRep ≠ 0#8 ∧ ending.actPat ≠ 0#32 ∧ 0 < 32 ∧ ending.curByte = BitVec.ofNat 2 (0 / 8) ∧
      ending.curMask = BitVec.ofNat 8 (2 ^ (0 % 8)) := by decide

theorem witness_FlatViewAgrees : playing.Inv := by decide

theorem witness_RequestPlaysItsRepetitions :
    waitingOne.actRep = 0#8 ∧ waitingOne.curMask = 0#8 ∧ waitingOne.pendRep ≠ 0#8 ∧
      IsTopBit waitingOne.pendPat 0 ∧ 0 < 1 ∧ 1 < waitingOne.pendRep.toNat * (0 + 1) :=
  ⟨by decide, by decide, by decide, isTopBit_of_eq (by decide) (by decide), by decide, by decide⟩

theorem witness_RequestStartsOnNextTick :
    (Instr.beepPattern 1).isRequest = true ∧ waiting.actRep = 0#8 ∧ waiting.curMask = 0#8 ∧
      (after (exec (.beepPattern 1) waiting)).map (fun t => decide (t.pendPat ≠ 0#32 ∧ t.pendRep ≠ 0#8)) = some true := by
  decide

theorem witness_SubmitsNeverPreempt :
    playing.Inv ∧ (∀ i ∈ [Instr.tick, .beepPattern 5, .reservedOp3, .tick], i ≠ .init) ∧
      [Instr.tick, .beepPattern 5, .reservedOp3, .tick].count .tick ≤ ticksLeft playing := by decide

theorem witness_PickUpOnlyWhenIdle_tick : playing.actRep ≠ 0#8 := by decide
theorem witness_PickUpOnlyWhenIdle_request : Instr.reservedOp3 ≠ .tick ∧ Instr.reservedOp3 ≠ .init := by decide

theorem witness_WaitLastsTicksLeftPlusSlot :
    ending.Inv ∧ ticksLeft ending + slotTicks ending ≤ 4 ∧ ticksLeft ending + slotTicks ending = 4 := by decide

theorem witness_BusyChangesAsTabled_cadence : (255 : RepCount) ≠ 0#8 := by decide
theorem witness_BusyChangesAsTabled_pick_up :
    waitingOne.actRep = 0#8 ∧ waitingOne.curMask = 0#8 ∧ waitingOne.pendRep ≠ 0#8 ∧ waitingOne.pendPat ≠ 0#32 := by decide
theorem witness_BusyChangesAsTabled_zero :
    (st (0, 7) (3, 0) (0, 0) .on).actRep = 0#8 ∧ (st (0, 7) (3, 0) (0, 0) .on).pendRep ≠ 0#8 ∧
      (st (0, 7) (3, 0) (0, 0) .on).pendPat = 0#32 := by decide
theorem witness_BusyChangesAsTabled_last : ending.actRep ≠ 0#8 ∧ ending.Inv ∧ ticksLeft ending = 1 := by decide

theorem witness_OutputHeldAfterCompletion :
    (st (3, 0) (3, 1) (0, 1) .on).actRep = 1#8 ∧ (st (3, 0) (3, 1) (0, 1) .on).actPat ≠ 0#32 ∧
      (st (3, 0) (3, 1) (0, 1) .on).curByte = 0#2 ∧ (st (3, 0) (3, 1) (0, 1) .on).curMask = 1#8 ∧
      (st (3, 0) (3, 1) (0, 1) .on).pendRep = 0#8 := by decide

theorem witness_NextRequestFollowsWithoutGap :
    ending.Inv ∧ ending.actRep ≠ 0#8 ∧ ticksLeft ending = 1 ∧ ending.pendRep ≠ 0#8 ∧ ending.pendPat ≠ 0#32 := by decide

theorem witness_RepCountFallsByOneAtMost : ending.actRep ≠ 0#8 ∧ ending.actPat ≠ 0#32 := by decide

theorem witness_CadencePlaysItsLayout_low :
    2 = min ((125 : Duration).toNat * 16 / 1000) 16 ∧ 1 ≤ 2 ∧ waiting.actRep = 0#8 ∧ waiting.curMask = 0#8 ∧
      waiting.cadenceLayout = .low := by decide
theorem witness_CadencePlaysItsLayout_high :
    16 = min ((65535 : Duration).toNat * 16 / 1000) 16 ∧ 1 ≤ 16 ∧
      ({ waiting with cadenceLayout := .high } : State).actRep = 0#8 ∧
      ({ waiting with cadenceLayout := .high } : State).curMask = 0#8 ∧
      ({ waiting with cadenceLayout := .high } : State).cadenceLayout = .high := by decide

theorem witness_InitResetsSevenElements :
    ({ playing with inputs := [encode .init] } : State).inputs = encode .init :: [] ∧ (encode .init).rst = true := by decide

theorem witness_StepKeepsInv :
    ({ playing with inputs := [encode .tick] } : State).Inv ∧
      after (step { playing with inputs := [encode .tick] }) = some (st (0xFF, 9) (0x500, 2) (0, 0x80) .on) := by decide

theorem witness_OutSetOnlyByTickAndInit_exec :
    Instr.beepPattern 5 ≠ .tick ∧ Instr.beepPattern 5 ≠ .init ∧
      after (exec (.beepPattern 5) playing) = some { playing with pendPat := 5, pendRep := 1 } := by decide
theorem witness_OutSetOnlyByTickAndInit_step :
    ({ playing with inputs := [encode (.beepPattern 5)] } : State).inputs = encode (.beepPattern 5) :: [] ∧
      (encode (.beepPattern 5)).rst = false ∧ (encode (.beepPattern 5)).tick = false ∧
      after (step { playing with inputs := [encode (.beepPattern 5)] }) =
        some { playing with pendPat := 5, pendRep := 1 } := by decide

theorem witness_UnreadFieldsDoNotMatter_slot : State.reset.pendRep = 0#8 := by decide
theorem witness_UnreadFieldsDoNotMatter_active : waiting.actRep = 0#8 ∧ waiting.curMask = 0#8 := by decide

theorem witness_StepKeepsLayoutAndConsumesInput :
    after (step { playing with inputs := [encode .reservedOp3] }) = some playing := by decide

end Sys2Proof.Tests
end

section
/-! Family 10_state: the pending slot does not interfere with a Playing engine, and the values after reset. -/

namespace Sys2Proof.Machine

section slot

variable (request : Pattern × RepCount) (s : State)

/-- Writing into the slot what it already holds changes nothing. -/
theorem pendWrite_self : pendWrite (s.pendPat, s.pendRep) s = s := rfl

/-! Every step of a Playing engine commutes with a write of the slot: none reads or changes it. -/

theorem locateCursor_pendWrite : locateCursor (pendWrite request s) = pendWrite request (locateCursor s) := rfl

theorem cursorLevel_pendWrite : cursorLevel (pendWrite request s) = cursorLevel s := rfl

theorem setLevel_pendWrite (level : Level) :
    setLevel level (pendWrite request s) = pendWrite request (setLevel level s) := rfl

theorem advanceCursor_pendWrite : advanceCursor (pendWrite request s) = pendWrite request (advanceCursor s) := by
  simp only [advanceCursor, apply_ite (pendWrite request)]
  rfl

theorem play_pendWrite :
    play (pendWrite request s) = (pendWrite request (play s).1, (play s).2) := by
  by_cases hm : s.curMask = 0#8
  · simp [play, State.curValid, hm, locateCursor_pendWrite, advanceCursor_pendWrite]
  · simp [play, State.curValid, hm, cursorLevel_pendWrite, advanceCursor_pendWrite]

/-! No step of a Playing engine writes ACT_PAT. -/

theorem advanceCursor_actPat : (advanceCursor s).actPat = s.actPat := by
  rcases advanceCursor_cases s with h | h | h <;> rw [h]

theorem play_actPat : (play s).1.actPat = s.actPat := by
  rcases play_cases s with ⟨-, h⟩ | ⟨-, h⟩ <;> simp [h, advanceCursor_actPat]

end slot

/-- A Playing engine whose pattern is 0 becomes Idle and returns OFF (R122). -/
theorem tick_of_playing_zero {s : State} (h : s.actRep ≠ 0#8) (hp : s.actPat = 0#32) :
    tick s = (setLevel .off { s with actRep := 0#8 }, .off) := by
  simp [tick, engineStep, pickUp_of_playing h, resolveZero_of_zero hp, State.engPlaying]

/-- Writing the slot of a Playing engine before a TICK or after it makes no difference (R28). -/
theorem tick_pendWrite_of_playing (request : Pattern × RepCount) {s : State} (h : s.actRep ≠ 0#8) :
    tick (pendWrite request s) = (pendWrite request (tick s).1, (tick s).2) := by
  have hw : (pendWrite request s).actRep ≠ 0#8 := h
  by_cases hp : s.actPat = 0#32
  · rw [tick_of_playing_zero hw hp, tick_of_playing_zero h hp]
    rfl
  · rw [tick_of_playing hw hp, tick_of_playing h hp, play_pendWrite, setLevel_pendWrite]

/-- The TICK of a Playing engine leaves the slot alone: it commutes with writing the slot's own content. -/
theorem pendWrite_tick_of_playing {s : State} (h : s.actRep ≠ 0#8) :
    pendWrite (s.pendPat, s.pendRep) (tick s).1 = (tick s).1 :=
  (congrArg Prod.fst (tick_pendWrite_of_playing (s.pendPat, s.pendRep) h)).symm

theorem tick_pendPat_of_playing {s : State} (h : s.actRep ≠ 0#8) : (tick s).1.pendPat = s.pendPat := by
  rw [← pendWrite_tick_of_playing h, pendWrite_pendPat]

theorem tick_pendRep_of_playing {s : State} (h : s.actRep ≠ 0#8) : (tick s).1.pendRep = s.pendRep := by
  rw [← pendWrite_tick_of_playing h, pendWrite_pendRep]

theorem tick_actPat_of_playing {s : State} (h : s.actRep ≠ 0#8) : (tick s).1.actPat = s.actPat := by
  by_cases hp : s.actPat = 0#32
  · rw [tick_of_playing_zero h hp, setLevel_actPat]
  · rw [tick_of_playing h hp, setLevel_actPat, play_actPat]

/-- An operation that is neither TICK nor INIT changes nothing, or writes the slot: it always is some write of the slot. -/
theorem exec_eq_pendWrite {i : Instr} (ht : i ≠ .tick) (hi : i ≠ .init) (s : State) :
    ∃ request, exec i s = .next (pendWrite request s) := by
  cases i with
  | beepDuration d => exact exec_request_cases rfl s
  | beepCadence n d => exact exec_request_cases rfl s
  | beepPattern p => exact exec_request_cases rfl s
  | reservedOp3 => exact ⟨(s.pendPat, s.pendRep), rfl⟩
  | tick => exact absurd rfl ht
  | init => exact absurd rfl hi

theorem exec_tick (s : State) : exec .tick s = .next (tick s).1 := rfl

/-- Settles O31: a write of the slot commutes with the TICK of a Playing engine, and every operation but TICK and INIT is a
write of the slot. -/
theorem pickUpOnlyWhenIdle : Obligations.PickUpOnlyWhenIdle := by
  unfold Obligations.PickUpOnlyWhenIdle
  constructor
  · intro s p r h
    refine ⟨(tick s).1, exec_tick s, tick_actPat_of_playing h, tick_pendPat_of_playing h, tick_pendRep_of_playing h, ?_⟩
    have hcomm : (tick (pendWrite (p, r) s)).1 = pendWrite (p, r) (tick s).1 :=
      congrArg Prod.fst (tick_pendWrite_of_playing (p, r) h)
    exact congrArg Host.Outcome.next hcomm
  · intro i s ht hi
    obtain ⟨request, hexec⟩ := exec_eq_pendWrite ht hi s
    exact ⟨pendWrite request s, hexec, rfl⟩

/-- Settles O39: each value is the one the reset state is defined with. -/
theorem resetStateValues : Obligations.ResetStateValues := ⟨rfl, rfl, rfl, rfl, rfl, rfl, rfl⟩

end Sys2Proof.Machine
end

section
/-! Family 30_encoding: what each operation code decodes to, and the events of one clock cycle. -/

namespace Sys2Proof

/-! Decoding a word by its operation code (R76, R78). -/

section decodeWord

variable {cw : CommandWord}

theorem decodeWord_of_op_duration (h : CommandWord.op cw = 0b00#2) :
    decodeWord cw = .beepDuration (CommandWord.duration cw) := by
  simp [decodeWord, h]

theorem decodeWord_of_op_cadence (h : CommandWord.op cw = 0b01#2) :
    decodeWord cw = .beepCadence (CommandWord.count cw) (CommandWord.duration cw) := by
  simp [decodeWord, h]

theorem decodeWord_of_op_pattern (h : CommandWord.op cw = 0b10#2) :
    decodeWord cw = .beepPattern (CommandWord.pattern cw) := by
  simp [decodeWord, h]

theorem decodeWord_of_op_reserved (h : CommandWord.op cw = 0b11#2) : decodeWord cw = .reservedOp3 := by
  simp [decodeWord, h]

end decodeWord

/-! Decoding a word put together from its fields: every value of an ignored field gives the same operation (R76). -/

section requestWord

variable (n : BitVec 8) (data : BitVec 32)

theorem decodeWord_requestWord_duration :
    decodeWord (requestWord 0b00#2 n data) = .beepDuration (data.extractLsb' 0 16) := by
  rw [decodeWord_of_op_duration (op_requestWord _ n data), duration_requestWord]

theorem decodeWord_requestWord_cadence :
    decodeWord (requestWord 0b01#2 n data) = .beepCadence n (data.extractLsb' 0 16) := by
  rw [decodeWord_of_op_cadence (op_requestWord _ n data), count_requestWord, duration_requestWord]

theorem decodeWord_requestWord_pattern : decodeWord (requestWord 0b10#2 n data) = .beepPattern data := by
  rw [decodeWord_of_op_pattern (op_requestWord _ n data), pattern_requestWord]

theorem decodeWord_requestWord_reserved : decodeWord (requestWord 0b11#2 n data) = .reservedOp3 :=
  decodeWord_of_op_reserved (op_requestWord _ n data)

end requestWord

/-- Settles O3: `requestWord` is the concatenation of the three fields, and the canonical encodings are made with it. -/
theorem commandWordFieldsDecode : Obligations.CommandWordFieldsDecode :=
  ⟨decodeWord_requestWord_duration, decodeWord_requestWord_cadence, decodeWord_requestWord_pattern,
    decodeWord_requestWord_reserved, fun _ => rfl, fun _ _ => rfl, fun _ => rfl, rfl, rfl, rfl⟩

/-- The operation code is the word's two highest bits, so the reserved one is that of the highest quarter of the words. -/
theorem op_eq_reserved_iff (cw : CommandWord) : CommandWord.op cw = 0b11#2 ↔ 0x30000000000 ≤ cw.toNat := by
  have hop : (CommandWord.op cw).toNat = cw.toNat / 2 ^ 40 % 2 ^ 2 := by
    rw [CommandWord.op, BitVec.extractLsb'_toNat, Nat.shiftRight_eq_div_pow]
  have hlt : cw.toNat < 2 ^ 42 := cw.isLt
  rw [← BitVec.toNat_inj, hop, BitVec.toNat_ofNat]
  omega

/-! The events of a clock cycle, by its strobes (R74). -/

section decodeCycle

variable {c : Cycle}

theorem decodeCycle_of_rst (hr : c.rst = true) : decodeCycle c = [.init] := by
  simp [decodeCycle, hr]

theorem decodeCycle_of_tick (hr : c.rst = false) (ht : c.tick = true) (hv : c.reqValid = false) :
    decodeCycle c = [.tick] := by
  simp [decodeCycle, hr, ht, hv]

theorem decodeCycle_of_request (hr : c.rst = false) (ht : c.tick = false) (hv : c.reqValid = true) :
    decodeCycle c = [decodeWord c.reqCw] := by
  simp [decodeCycle, hr, ht, hv]

theorem decodeCycle_of_tick_request (hr : c.rst = false) (ht : c.tick = true) (hv : c.reqValid = true) :
    decodeCycle c = [.tick, decodeWord c.reqCw] := by
  simp [decodeCycle, hr, ht, hv]

theorem decodeCycle_of_no_strobe (hr : c.rst = false) (ht : c.tick = false) (hv : c.reqValid = false) :
    decodeCycle c = [] := by
  simp [decodeCycle, hr, ht, hv]

end decodeCycle

end Sys2Proof

namespace Sys2Proof.Machine

/-- A step with inputs waiting performs the events of the first cycle's inputs, on the state without them. -/
theorem step_of_inputs_cons {s : State} {c : Cycle} {rest : List Cycle} {events : List Instr}
    (h : s.inputs = c :: rest) (hc : decodeCycle c = events) : step s = runEvents events { s with inputs := rest } := by
  rw [step, sampleInputs_cons h, clockCycle, hc]

/-- An event after a TICK is performed on the state that the TICK left. -/
theorem runEvents_tick_then (i : Instr) (s : State) : runEvents [.tick, i] s = exec i (tick s).1 := by
  rw [runEvents, exec_tick, chain_next, runEvents_singleton]

/-- Settles O7: the strobes fix the cycle's list of events, which the step performs in order. -/
theorem clockCycleOrdersItsEvents : Obligations.ClockCycleOrdersItsEvents := by
  unfold Obligations.ClockCycleOrdersItsEvents
  intro s c rest h
  refine ⟨fun hr => ?rst, fun hr ht hv => ?tick, fun hr ht hv => ?request, fun hr ht hv => ?tickThenRequest,
    fun hr ht hv => ?noStrobe⟩
  case rst => rw [step_of_inputs_cons h (decodeCycle_of_rst hr), runEvents_singleton]
  case tick => rw [step_of_inputs_cons h (decodeCycle_of_tick hr ht hv), runEvents_singleton]
  case request => rw [step_of_inputs_cons h (decodeCycle_of_request hr ht hv), runEvents_singleton]
  case tickThenRequest =>
    refine ⟨(tick { s with inputs := rest }).1, exec_tick _, ?_⟩
    rw [step_of_inputs_cons h (decodeCycle_of_tick_request hr ht hv), runEvents_tick_then]
  case noStrobe => rw [step_of_inputs_cons h (decodeCycle_of_no_strobe hr ht hv), runEvents]

theorem exec_reservedOp3 (s : State) : exec .reservedOp3 s = .next s := rfl

/-- Settles O18: a word of this size has the reserved operation code. -/
theorem reservedCodeIsIgnored : Obligations.ReservedCodeIsIgnored := by
  unfold Obligations.ReservedCodeIsIgnored
  refine ⟨exec_reservedOp3, fun cw s h => ?_⟩
  rw [decodeWord_of_op_reserved ((op_eq_reserved_iff cw).2 h), exec_reservedOp3]

end Sys2Proof.Machine
end

section
/-! Family 40_encoder: the tick counts of a duration, the encoder's patterns of them, and the pair each request writes. -/

namespace Sys2Proof.Machine

/-! The tick counts (R89, R91, R94). -/

section ticks

variable (d : Duration)

theorem durationTicks_eq : durationTicks d = min (d.toNat * 16 / 1000) 32 := rfl

theorem cadenceTicks_eq : cadenceTicks d = min (d.toNat * 16 / 1000) 16 := rfl

theorem durationTicks_le : durationTicks d ≤ 32 := Nat.min_le_right _ _

/-- One tick interval is 62.5 ms: the durations that reach it are those above 62. -/
theorem durationTicks_pos_iff : 0 < durationTicks d ↔ 62 < d.toNat := by
  rw [durationTicks_eq]
  omega

theorem durationTicks_mono {d₁ d₂ : Duration} (h : d₁ ≤ d₂) : durationTicks d₁ ≤ durationTicks d₂ := by
  have hle : d₁.toNat ≤ d₂.toNat := h
  rw [durationTicks_eq, durationTicks_eq]
  omega

theorem cadenceTicks_of_ge {d : Duration} (h : 1000 ≤ d.toNat) : cadenceTicks d = 16 := by
  rw [cadenceTicks_eq]
  omega

end ticks

/-! A pattern of `t` low bits: its value and its length. -/

section lowBits

variable {t : Nat}

theorem toNat_ofNat_lowBits (h : t ≤ 32) : (BitVec.ofNat 32 (lowBits t)).toNat = 2 ^ t - 1 := by
  have hpow : 2 ^ t ≤ 2 ^ 32 := Nat.pow_le_pow_right (by decide) h
  rw [lowBits_eq, BitVec.toNat_ofNat, Nat.mod_eq_of_lt (by omega)]

theorem isTopBit_lowBits (hpos : 0 < t) (h : t ≤ 32) : IsTopBit (BitVec.ofNat 32 (lowBits t)) (t - 1) := by
  refine ⟨?_, fun j hj => ?_⟩
  · rw [getLsbD_lowBits h]
    exact decide_eq_true (by omega)
  · rw [getLsbD_lowBits h]
    exact decide_eq_false (by omega)

/-- The pattern of `t` low bits is `t` long; `patternLength` counts the pattern 0 of `t = 0` as 1. -/
theorem patternLength_lowBits (h : t ≤ 32) : patternLength (BitVec.ofNat 32 (lowBits t)) = max t 1 := by
  rcases Nat.eq_zero_or_pos t with rfl | hpos
  · decide
  · rw [patternLength, (isTopBit_lowBits hpos h).msbIndex_eq]
    omega

end lowBits

/-! The pattern of BEEP_DURATION (R90). -/

section encDuration

variable (d : Duration)

theorem encDuration_toNat : (encDuration d).1.toNat = 2 ^ durationTicks d - 1 :=
  toNat_ofNat_lowBits (durationTicks_le d)

theorem encDuration_ne_zero {d : Duration} (h : 62 < d.toNat) : (encDuration d).1 ≠ 0#32 :=
  (isTopBit_lowBits ((durationTicks_pos_iff d).2 h) (durationTicks_le d)).ne_zero

theorem encDuration_patternLength : patternLength (encDuration d).1 = max (durationTicks d) 1 :=
  patternLength_lowBits (durationTicks_le d)

/-- From 32 ticks up the pattern is the longest there is (R91). -/
theorem encDuration_of_ticks_ge {d : Duration} (h : 32 ≤ ticks d) : (encDuration d).1 = 0xFFFFFFFF#32 := by
  have hticks : durationTicks d = 32 := Nat.min_eq_right h
  rw [encDuration, hticks]
  decide

end encDuration

/-! The pair each request writes into the slot (R90, R93). -/

theorem exec_beepDuration (d : Duration) (s : State) :
    exec (.beepDuration d) s = .next { s with pendPat := (encDuration d).1, pendRep := 1#8 } := rfl

theorem exec_beepCadence (n : RepCount) (d : Duration) (s : State) :
    exec (.beepCadence n d) s =
      .next { s with pendPat := cadencePattern s.cadenceLayout (cadenceTicks d), pendRep := n } := rfl

theorem pendPat_of_exec_beepDuration {d : Duration} {s t : State} (h : exec (.beepDuration d) s = .next t) :
    t.pendPat = (encDuration d).1 := by
  rw [exec_beepDuration] at h
  cases h
  rfl

theorem busy_of_pendRep_ne_zero {s : State} (h : s.pendRep ≠ 0#8) : s.busy = true := by
  simp [State.busy, h]

/-- Settles O12: the pair is ENC_DURATION's, and its count 1 makes the CORE busy. -/
theorem beepDurationWritesSlot : Obligations.BeepDurationWritesSlot := by
  unfold Obligations.BeepDurationWritesSlot
  intro d s
  have hcount : (1#8 : RepCount) ≠ 0#8 := by decide
  exact ⟨(encDuration d).1, exec_beepDuration d s, encDuration_toNat d, busy_of_pendRep_ne_zero hcount⟩

/-- Settles O14: the tick count saturates, is not 0 above 62 ms, and does not fall as the duration grows; the pattern's
length is that count, or 1. -/
theorem beepDurationSaturates : Obligations.BeepDurationSaturates := by
  unfold Obligations.BeepDurationSaturates
  refine ⟨fun d s h => ?saturated, fun d s t hd ht => ?notZero, fun d₁ d₂ s t₁ t₂ hd h₁ h₂ => ?notShorter⟩
  case saturated => rw [exec_beepDuration, encDuration_of_ticks_ge h]
  case notZero =>
    rw [pendPat_of_exec_beepDuration ht]
    exact encDuration_ne_zero hd
  case notShorter =>
    rw [pendPat_of_exec_beepDuration h₁, pendPat_of_exec_beepDuration h₂, encDuration_patternLength,
      encDuration_patternLength]
    exact max_le_max_right 1 (durationTicks_mono hd)

/-! The cadence cycle at the clamp, in either layout (R94). -/
theorem cadencePattern_low_clamped : cadencePattern .low 16 = 0x0000FFFF#32 := by decide

theorem cadencePattern_high_clamped : cadencePattern .high 16 = 0xFFFF0000#32 := by decide

/-- Settles O16: the tick count of such a duration is the clamp's, which leaves one pattern for each layout. -/
theorem beepCadenceClamps : Obligations.BeepCadenceClamps := by
  unfold Obligations.BeepCadenceClamps
  intro n d s hd
  refine ⟨fun hlow => ?low, fun hhigh => ?high⟩
  case low => rw [exec_beepCadence, cadenceTicks_of_ge hd, hlow, cadencePattern_low_clamped]
  case high => rw [exec_beepCadence, cadenceTicks_of_ge hd, hhigh, cadencePattern_high_clamped]

end Sys2Proof.Machine
end

section
/-! Family 41_pending_buffer: a request's clock cycle performs that request alone, and its pair depends on the cadence layout
alone. -/

namespace Sys2Proof

/-! Decoding the cycle that presents an operation (R74, R75). -/

theorem decodeCycle_requestCycle (cw : CommandWord) : decodeCycle (requestCycle cw) = [decodeWord cw] :=
  decodeCycle_of_request rfl rfl rfl

/-- A duration operand comes back from the low half of `data`, where the encoding puts it (R77). -/
theorem extractLsb'_setWidth_duration (d : Duration) : (d.setWidth 32).extractLsb' 0 16 = d := by
  rw [BitVec.extractLsb'_setWidth_of_le (by decide), BitVec.extractLsb'_eq_self]

/-- The cycle that presents an operation decodes to that operation alone. -/
theorem decodeCycle_encode (i : Instr) : decodeCycle (encode i) = [i] := by
  cases i with
  | beepDuration d =>
    rw [encode, decodeCycle_requestCycle, decodeWord_requestWord_duration, extractLsb'_setWidth_duration]
  | beepCadence n d =>
    rw [encode, decodeCycle_requestCycle, decodeWord_requestWord_cadence, extractLsb'_setWidth_duration]
  | beepPattern p => rw [encode, decodeCycle_requestCycle, decodeWord_requestWord_pattern]
  | reservedOp3 => rw [encode, decodeCycle_requestCycle, decodeWord_requestWord_reserved]
  | tick => exact decodeCycle_of_tick rfl rfl rfl
  | init => exact decodeCycle_of_rst rfl

end Sys2Proof

namespace Sys2Proof.Machine

/-- A step whose first cycle presents an operation is that operation, on the state without that cycle's inputs. -/
theorem step_of_inputs_encode {s : State} {i : Instr} {rest : List Cycle} (h : s.inputs = encode i :: rest) :
    step s = exec i { s with inputs := rest } := by
  rw [step_of_inputs_cons h (decodeCycle_encode i), runEvents_singleton]

/-- The pair a request writes is the same in all states of one cadence layout: nothing else of the state is read (R110). -/
theorem exec_request_of_layout {i : Instr} (h : i.isRequest = true) (layout : CadenceLayout) :
    ∃ request, ∀ s : State, s.cadenceLayout = layout → exec i s = .next (pendWrite request s) := by
  cases i with
  | beepDuration d => exact ⟨encDuration d, fun _ _ => rfl⟩
  | beepCadence n d =>
    refine ⟨encCadence layout n d, fun s hlayout => ?_⟩
    rw [← hlayout]
    rfl
  | beepPattern p => exact ⟨encPattern p, fun _ _ => rfl⟩
  | reservedOp3 => cases h
  | tick => cases h
  | init => cases h

/-- Settles O11: the layout fixes the pair, and the request's clock cycle is the request, on a state of the same layout. -/
theorem requestsWriteSlotUnconditionally : Obligations.RequestsWriteSlotUnconditionally := by
  unfold Obligations.RequestsWriteSlotUnconditionally
  intro i layout h
  obtain ⟨⟨pat, rep⟩, hexec⟩ := exec_request_of_layout h layout
  refine ⟨pat, rep, fun s hlayout => ⟨hexec s hlayout, rfl, fun rest hinputs => ?oneCycle⟩⟩
  case oneCycle =>
    rw [step_of_inputs_encode hinputs]
    exact hexec { s with inputs := rest } hlayout

end Sys2Proof.Machine
end

section
/-! Family 42_playback_engine: what a TICK reads, the bit it plays, and the ticks it leaves of the active request. -/

namespace Sys2Proof.Machine

/-! ## The zero pattern and the Idle engine (R122, R138) -/

/-- Settles O23: the zero pattern forces the count to 0, whether the TICK picked it up or found it active. -/
theorem tickResolvesZeroPattern : Obligations.TickResolvesZeroPattern := by
  unfold Obligations.TickResolvesZeroPattern
  refine ⟨fun s h hr hp => ?pickedUp, fun s h hp => ?active⟩
  case pickedUp => rw [exec_tick, tick_of_waiting_zero h hr hp]
  case active =>
    rw [exec_tick, tick_of_playing_zero h hp]
    rfl

theorem tickLevels_of_idle (k : Nat) {s : State} (h : s.actRep = 0#8) (hr : s.pendRep = 0#8) :
    tickLevels k s = List.replicate k .off := by
  induction k generalizing s with
  | zero => rfl
  | succ k ih =>
    have hrest : tickLevels k (setLevel .off s) = List.replicate k .off := ih h hr
    rw [tickLevels, tick_of_idle h hr, hrest, List.replicate_succ]

theorem tickTimes_succ_of_idle (k : Nat) {s : State} (h : s.actRep = 0#8) (hr : s.pendRep = 0#8) :
    tickTimes (k + 1) s = setLevel .off s := by
  induction k generalizing s with
  | zero => rw [tickTimes, tickTimes, tick_of_idle h hr]
  | succ k ih =>
    have hrest : tickTimes (k + 1) (setLevel .off s) = setLevel .off (setLevel .off s) := ih h hr
    rw [tickTimes, tick_of_idle h hr, hrest]
    rfl

/-- Settles O22: one TICK only switches OUT off, and leaves a state of the same kind. -/
theorem idleTicksAreAFixedPoint : Obligations.IdleTicksAreAFixedPoint := by
  unfold Obligations.IdleTicksAreAFixedPoint
  intro s h hr
  refine ⟨?oneTick, fun k => ⟨tickLevels_of_idle k h hr, tickTimes_succ_of_idle k h hr⟩⟩
  case oneTick =>
    rw [exec_tick, tick_of_idle h hr]
    rfl

/-! ## What a TICK does not read (R143) -/

section unread

/-- `s` with other values in the three fields that no step of the engine reads. -/
def State.withUnread (ins : List Cycle) (layout : CadenceLayout) (level : Level) (s : State) : State :=
  { s with inputs := ins, cadenceLayout := layout, out := level }

variable (ins : List Cycle) (layout : CadenceLayout) (level : Level) (s : State)

theorem pickUp_withUnread : pickUp (s.withUnread ins layout level) = (pickUp s).withUnread ins layout level := by
  simp only [pickUp, apply_ite (State.withUnread ins layout level)]
  rfl

theorem resolveZero_withUnread :
    resolveZero (s.withUnread ins layout level) = (resolveZero s).withUnread ins layout level := by
  simp only [resolveZero, apply_ite (State.withUnread ins layout level)]
  rfl

theorem locateCursor_withUnread :
    locateCursor (s.withUnread ins layout level) = (locateCursor s).withUnread ins layout level := rfl

theorem cursorLevel_withUnread : cursorLevel (s.withUnread ins layout level) = cursorLevel s := rfl

theorem advanceCursor_withUnread :
    advanceCursor (s.withUnread ins layout level) = (advanceCursor s).withUnread ins layout level := by
  simp only [advanceCursor, apply_ite (State.withUnread ins layout level)]
  rfl

theorem play_withUnread :
    play (s.withUnread ins layout level) = ((play s).1.withUnread ins layout level, (play s).2) := by
  have hmask : (s.withUnread ins layout level).curMask = s.curMask := rfl
  by_cases hm : s.curMask = 0#8
  · simp [play, State.curValid, hmask, hm, locateCursor_withUnread, advanceCursor_withUnread]
  · simp [play, State.curValid, hmask, hm, cursorLevel_withUnread, advanceCursor_withUnread]

theorem engineStep_withUnread :
    engineStep (s.withUnread ins layout level) = ((engineStep s).1.withUnread ins layout level, (engineStep s).2) := by
  have hplaying (u : State) : (u.withUnread ins layout level).engPlaying = u.engPlaying := rfl
  simp only [engineStep, pickUp_withUnread, resolveZero_withUnread, hplaying]
  split
  · exact play_withUnread ins layout level _
  · rfl

/-- The TICK sets OUT, so that of the three fields only the inputs and the layout are still those put in. -/
theorem tick_withUnread :
    tick (s.withUnread ins layout level) = ({ (tick s).1 with inputs := ins, cadenceLayout := layout }, (tick s).2) := by
  rw [tick, engineStep_withUnread]
  rfl

end unread

/-- Settles O43: every step of the engine commutes with a change of the fields it does not read. -/
theorem tickReadsOnlyPlaybackState : Obligations.TickReadsOnlyPlaybackState := by
  unfold Obligations.TickReadsOnlyPlaybackState
  intro s ins layout level
  refine ⟨(tick s).1, exec_tick s, ?_⟩
  exact congrArg Host.Outcome.next (congrArg Prod.fst (tick_withUnread ins layout level s))

/-! ## The bit a Playing engine plays (R123 to R127) -/

section located

/-- `s` with its cursor initialised: located where it was not (R123). -/
def State.located (s : State) : State := if s.curMask = 0#8 then locateCursor s else s

variable {s : State}

theorem located_of_no_cursor (hm : s.curMask = 0#8) : s.located = locateCursor s := if_pos hm

theorem located_of_cursor (hm : s.curMask ≠ 0#8) : s.located = s := if_neg hm

@[simp] theorem located_actPat : s.located.actPat = s.actPat := by
  by_cases hm : s.curMask = 0#8
  · rw [located_of_no_cursor hm, locateCursor_actPat]
  · rw [located_of_cursor hm]

@[simp] theorem located_actRep : s.located.actRep = s.actRep := by
  by_cases hm : s.curMask = 0#8
  · rw [located_of_no_cursor hm, locateCursor_actRep]
  · rw [located_of_cursor hm]

/-- The bit under a cursor just located is set, so its level is the ON that a new repetition starts with. -/
theorem cursorLevel_locateCursor (hp : s.actPat ≠ 0#32) : cursorLevel (locateCursor s) = .on := by
  rw [cursorLevel_of_cursorAt (locateCursor_cursorAt (isTopBit_msbIndex hp)), locateCursor_actPat, getLsbD_msbIndex hp]
  rfl

/-- A TICK of a Playing engine reads the bit at the located cursor and advances from there. -/
theorem tick_of_playing_located (h : s.actRep ≠ 0#8) (hp : s.actPat ≠ 0#32) :
    tick s = (setLevel (cursorLevel s.located) (advanceCursor s.located), cursorLevel s.located) := by
  rw [tick_of_playing h hp]
  rcases play_cases s with ⟨hm, hplay⟩ | ⟨hm, hplay⟩
  · rw [hplay, located_of_no_cursor hm, cursorLevel_locateCursor hp]
  · rw [hplay, located_of_cursor hm]

/-! The located cursor's flat position is the bit that the flat view plays (R130). -/

theorem playedBit_of_no_cursor (hm : s.curMask = 0#8) : s.flat.playedBit = msbIndex s.actPat := by
  simp [Flat.playedBit, State.flat, hm]

theorem playedBit_of_cursor (hm : s.curMask ≠ 0#8) : s.flat.playedBit = s.pos := by
  simp [Flat.playedBit, State.flat, hm]

theorem State.Inv.located_cursorAt (h : s.Inv) (hp : s.actPat ≠ 0#32) : CursorAt s.located s.flat.playedBit := by
  by_cases hm : s.curMask = 0#8
  · rw [located_of_no_cursor hm, playedBit_of_no_cursor hm]
    exact locateCursor_cursorAt (isTopBit_msbIndex hp)
  · rw [located_of_cursor hm, playedBit_of_cursor hm]
    exact h.cursorAt hm

theorem State.Inv.actPat_ne_zero (hinv : s.Inv) (h : s.actRep ≠ 0#8) : s.actPat ≠ 0#32 := by
  obtain ⟨-, hpat, -, -⟩ := hinv
  exact hpat h

theorem State.Inv.playedBit_le (h : s.Inv) : s.flat.playedBit ≤ msbIndex s.actPat := by
  by_cases hm : s.curMask = 0#8
  · rw [playedBit_of_no_cursor hm]
  · obtain ⟨-, -, -, hbelow⟩ := h
    rw [playedBit_of_cursor hm]
    exact Nat.le_of_succ_le (hbelow hm)

end located

/-- Settles O26: the cursor is valid, so the TICK reads the bit there and advances. -/
theorem tickPlaysBitAtCursor : Obligations.TickPlaysBitAtCursor := by
  unfold Obligations.TickPlaysBitAtCursor
  intro s k h hp hk hbyte hmask
  have hc : CursorAt s k := ⟨hk, hbyte, hmask⟩
  rw [exec_tick, tick_of_playing_located h hp, located_of_cursor hc.curMask_ne_zero, cursorLevel_of_cursorAt hc,
    advanceCursor_of_cursorAt hc]
  by_cases hk0 : k = 0
  · rw [if_pos hk0, if_pos hk0, hk0]
    rfl
  · rw [if_neg hk0, if_neg hk0]
    rfl

/-! ## The first TICK of a request (R133) -/

theorem advanceCursor_pendRep (s : State) : (advanceCursor s).pendRep = s.pendRep := by
  rcases advanceCursor_cases s with h | h | h <;> rw [h]

/-- An Idle engine with a request to play turns ON, makes its pattern the active one and empties the slot. -/
theorem tick_starts_request {s : State} (h : s.actRep = 0#8) (hm : s.curMask = 0#8) (hr : s.pendRep ≠ 0#8)
    (hp : s.pendPat ≠ 0#32) :
    (tick s).1.out = .on ∧ (tick s).1.actPat = s.pendPat ∧ (tick s).1.pendRep = 0#8 := by
  rw [tick_of_waiting h hr hp]
  rcases play_cases { s with actPat := s.pendPat, actRep := s.pendRep, pendRep := 0#8 } with ⟨-, hplay⟩ | ⟨hcur, -⟩
  · simp [hplay, advanceCursor_actPat, advanceCursor_pendRep]
  · exact absurd hm hcur

/-- Settles O29: the request is a write of the slot, which leaves the engine Idle without a cursor. -/
theorem requestStartsOnNextTick : Obligations.RequestStartsOnNextTick := by
  unfold Obligations.RequestStartsOnNextTick
  intro i s hi h hm
  obtain ⟨request, hexec⟩ := exec_request_cases hi s
  refine ⟨pendWrite request s, hexec, fun hp hr => ?_⟩
  exact ⟨(tick (pendWrite request s)).1, exec_tick _, tick_starts_request h hm hr hp⟩

/-! ## The ticks left of the active request, and what keeps them (R132, R139) -/

section ticksLeft

variable {s : State}

theorem playing_of_ticksLeft_pos (h : 0 < ticksLeft s) : s.actRep ≠ 0#8 := fun hidle => by
  simp [ticksLeft, State.engIdle, hidle] at h

/-- Without a cursor every repetition left is whole; an Idle engine has none. -/
theorem ticksLeft_of_no_cursor (hm : s.curMask = 0#8) : ticksLeft s = s.actRep.toNat * patternLength s.actPat := by
  by_cases h : s.actRep = 0#8
  · simp [ticksLeft, State.engIdle, h]
  · simp [ticksLeft, State.engIdle, State.curValid, h, hm]

theorem ticksLeft_of_cursor (hm : s.curMask ≠ 0#8) (h : s.actRep ≠ 0#8) :
    ticksLeft s = s.pos + 1 + (s.actRep.toNat - 1) * patternLength s.actPat := by
  simp [ticksLeft, State.engIdle, State.curValid, h, hm]

theorem toNat_pos_of_ne_zero {r : RepCount} (h : r ≠ 0#8) : 0 < r.toNat := by
  bv_omega

/-- With the cursor located or to be located, the running repetition has the played bit and those below it left. -/
theorem ticksLeft_of_playing (h : s.actRep ≠ 0#8) :
    ticksLeft s = s.flat.playedBit + 1 + (s.actRep.toNat - 1) * patternLength s.actPat := by
  by_cases hm : s.curMask = 0#8
  · have hrep : s.actRep.toNat = s.actRep.toNat - 1 + 1 := (Nat.sub_add_cancel (toNat_pos_of_ne_zero h)).symm
    rw [ticksLeft_of_no_cursor hm, playedBit_of_no_cursor hm, hrep, Nat.succ_mul, Nat.add_comm]
    rfl
  · rw [ticksLeft_of_cursor hm h, playedBit_of_cursor hm]

/-! The two kinds of state a Playing engine's TICK leaves meet the invariants. -/

theorem inv_of_no_cursor (hm : s.curMask = 0#8) (hp : s.actPat ≠ 0#32) : s.Inv :=
  ⟨fun _ => hm, fun _ => hp, .inl hm, fun hne => absurd hm hne⟩

theorem inv_of_cursorAt {k : Nat} (hc : CursorAt s k) (h : s.actRep ≠ 0#8) (hp : s.actPat ≠ 0#32)
    (hk : k + 1 ≤ msbIndex s.actPat) : s.Inv := by
  refine ⟨fun hidle => absurd hidle h, fun _ => hp, .inr ⟨⟨k % 8, Nat.mod_lt k (by decide)⟩, ?oneHot⟩, fun _ => ?below⟩
  case oneHot => exact hc.2.2.trans (ofNat_two_pow_mask (k % 8))
  case below =>
    rw [hc.pos_eq]
    exact hk

theorem toNat_sub_one {r : RepCount} (h : r ≠ 0#8) : (r - 1#8).toNat = r.toNat - 1 := by
  bv_omega

/-- Advancing from flat position `k` keeps the invariants and leaves the `k` bits below and the repetitions after. -/
theorem advanceCursor_inv_ticksLeft {k : Nat} (hc : CursorAt s k) (h : s.actRep ≠ 0#8) (hp : s.actPat ≠ 0#32)
    (hk : k ≤ msbIndex s.actPat) :
    (advanceCursor s).Inv ∧ ticksLeft (advanceCursor s) = k + (s.actRep.toNat - 1) * patternLength s.actPat := by
  rw [advanceCursor_of_cursorAt hc]
  by_cases hk0 : k = 0
  · rw [if_pos hk0, ticksLeft_of_no_cursor rfl, toNat_sub_one h, hk0, Nat.zero_add]
    exact ⟨inv_of_no_cursor rfl hp, rfl⟩
  · rw [if_neg hk0]
    obtain ⟨hlt, -, -⟩ := hc
    have hlower : CursorAt
        { s with curByte := BitVec.ofNat 2 ((k - 1) / 8), curMask := BitVec.ofNat 8 (2 ^ ((k - 1) % 8)) } (k - 1) :=
      ⟨by omega, rfl, rfl⟩
    have hsucc : k - 1 + 1 = k := Nat.succ_pred hk0
    refine ⟨inv_of_cursorAt hlower h hp (hsucc.trans_le hk), ?_⟩
    rw [ticksLeft_of_cursor hlower.curMask_ne_zero h, hlower.pos_eq, hsucc]

/-- A TICK of a Playing engine keeps the invariants and takes one from the ticks left. -/
theorem tick_inv_ticksLeft_of_playing (hinv : s.Inv) (h : s.actRep ≠ 0#8) :
    (tick s).1.Inv ∧ ticksLeft (tick s).1 + 1 = ticksLeft s := by
  have hp : s.actPat ≠ 0#32 := hinv.actPat_ne_zero h
  obtain ⟨hkeeps, hleft⟩ := advanceCursor_inv_ticksLeft (hinv.located_cursorAt hp) (by simpa using h)
    (by simpa using hp) (by simpa using hinv.playedBit_le)
  rw [tick_of_playing_located h hp, ticksLeft_of_playing h]
  refine ⟨hkeeps, ?_⟩
  calc ticksLeft (advanceCursor s.located) + 1
      = s.flat.playedBit + (s.actRep.toNat - 1) * patternLength s.actPat + 1 := by
        rw [hleft, located_actRep, located_actPat]
    _ = s.flat.playedBit + 1 + (s.actRep.toNat - 1) * patternLength s.actPat := by omega

end ticksLeft

/-- While ticks of the active request are left, what stands in the slot changes no level. -/
theorem tickLevels_pendWrite (request : Pattern × RepCount) (k : Nat) {s : State} (hinv : s.Inv)
    (hk : k ≤ ticksLeft s) : tickLevels k (pendWrite request s) = tickLevels k s := by
  induction k generalizing s with
  | zero => rfl
  | succ k ih =>
    have h : s.actRep ≠ 0#8 := playing_of_ticksLeft_pos (by omega)
    obtain ⟨hinv', hleft⟩ := tick_inv_ticksLeft_of_playing hinv h
    rw [tickLevels, tickLevels, tick_pendWrite_of_playing request h, ih hinv' (by omega)]

/-- Settles O30, by induction on the events: a TICK leaves a state of the same kind with one tick less to go, and every
other event writes the slot alone, which the ticks left do not read. -/
theorem submitsNeverPreempt : Obligations.SubmitsNeverPreempt := by
  unfold Obligations.SubmitsNeverPreempt
  intro es s hinv hes hcount
  induction es generalizing s with
  | nil => rfl
  | cons i rest ih =>
    have hrest : ∀ j ∈ rest, j ≠ .init := fun j hj => hes j (List.mem_cons_of_mem i hj)
    by_cases hi : i = .tick
    · subst hi
      rw [List.count_cons_self] at hcount ⊢
      have h : s.actRep ≠ 0#8 := playing_of_ticksLeft_pos (by omega)
      obtain ⟨hinv', hleft⟩ := tick_inv_ticksLeft_of_playing hinv h
      rw [eventLevels_cons_tick (exec_tick s), tickLevels, ih _ hinv' hrest (by omega)]
      rfl
    · rw [List.count_cons_of_ne hi] at hcount ⊢
      obtain ⟨request, hexec⟩ := exec_eq_pendWrite hi (hes i List.mem_cons_self) s
      have hwritten : eventLevels rest (pendWrite request s) = tickLevels (rest.count .tick) (pendWrite request s) :=
        ih _ hinv hrest hcount
      rw [eventLevels_cons_of_ne_tick hi hexec, hwritten, tickLevels_pendWrite request _ hinv hcount]

end Sys2Proof.Machine
end

section
/-! Family 43_output_driver: the level-set on OUT (R151). -/

namespace Sys2Proof

/-- A command word is never a strobe, whatever its operation code (R76, R79): TICK and INIT are inputs of their own. -/
theorem decodeWord_ne_strobe (cw : CommandWord) : decodeWord cw ≠ .tick ∧ decodeWord cw ≠ .init := by
  unfold decodeWord
  split_ifs <;> exact ⟨nofun, nofun⟩

end Sys2Proof

namespace Sys2Proof.Machine

theorem tick_out (s : State) : (tick s).1.out = (tick s).2 := setLevel_out _ _

/-- An operation that is neither TICK nor INIT keeps OUT: it is a write of the slot. -/
theorem out_of_exec {i : Instr} {s t : State} (ht : i ≠ .tick) (hi : i ≠ .init) (h : exec i s = .next t) :
    t.out = s.out := by
  obtain ⟨request, hexec⟩ := exec_eq_pendWrite ht hi s
  obtain rfl : pendWrite request s = t := Host.Outcome.next.inj (hexec.symm.trans h)
  exact pendWrite_out request s

/-- A step whose cycle has neither `tick` nor `rst` keeps OUT: its one event, if any, is a decoded command word. -/
theorem out_of_step {s t : State} {c : Cycle} {rest : List Cycle} (hinputs : s.inputs = c :: rest)
    (hr : c.rst = false) (ht : c.tick = false) (h : step s = .next t) : t.out = s.out := by
  cases hv : c.reqValid with
  | false =>
    rw [step_of_inputs_cons hinputs (decodeCycle_of_no_strobe hr ht hv), runEvents] at h
    rw [← Host.Outcome.next.inj h]
  | true =>
    rw [step_of_inputs_cons hinputs (decodeCycle_of_request hr ht hv), runEvents_singleton] at h
    obtain ⟨hneTick, hneInit⟩ := decodeWord_ne_strobe c.reqCw
    have hkept : t.out = ({ s with inputs := rest } : State).out := out_of_exec hneTick hneInit h
    exact hkept

/-- Settles O42: a TICK ends in its level-set, and every other event of a clock cycle but INIT is a write of the slot. -/
theorem outSetOnlyByTickAndInit : Obligations.OutSetOnlyByTickAndInit :=
  ⟨fun s => ⟨exec_tick s, tick_out s⟩, fun _ _ _ => out_of_exec, fun _ _ _ _ => out_of_step⟩

end Sys2Proof.Machine
end

section
/-! Family 44_wait_and_init: the state INIT leaves, and what INIT, TICK and the strobe `rst` do around it (R165). -/

namespace Sys2Proof.Machine

/-- `s` after INIT: the seven elements at their reset values, the build parameter and the waiting inputs as they were. -/
def State.initialised (s : State) : State :=
  { s with pendPat := 0#32, pendRep := 0#8, actPat := 0#32, actRep := 0#8, curByte := 0#2, curMask := 0#8, out := .off }

theorem exec_init (s : State) : exec .init s = .next s.initialised := rfl

theorem initialised_initialised (s : State) : s.initialised.initialised = s.initialised := rfl

theorem initialised_flags (s : State) :
    s.initialised.engIdle = true ∧ s.initialised.pendEmpty = true ∧ s.initialised.curValid = false ∧
      s.initialised.busy = false :=
  ⟨rfl, rfl, rfl, rfl⟩

/-- A TICK after INIT finds the engine Idle, the slot empty and OUT already off: it returns OFF and changes nothing. -/
theorem tick_initialised (s : State) : tick s.initialised = (s.initialised, .off) := by
  have hidle : s.initialised.actRep = 0#8 := rfl
  have hempty : s.initialised.pendRep = 0#8 := rfl
  have hoff : setLevel .off s.initialised = s.initialised := rfl
  rw [tick_of_idle hidle hempty, hoff]

/-- The strobe `rst` makes a clock cycle INIT, whatever the cycle's other inputs are (R74). -/
theorem step_of_rst {s : State} {c : Cycle} {rest : List Cycle} (hinputs : s.inputs = c :: rest) (hr : c.rst = true) :
    step s = .next { s.initialised with inputs := rest } := by
  rw [step_of_inputs_cons hinputs (decodeCycle_of_rst hr), runEvents_singleton, exec_init]
  rfl

/-- Settles O38: the state after INIT is a fixed point of INIT and of TICK, and the cycle's `rst` decodes to INIT alone. -/
theorem initResetsSevenElements : Obligations.InitResetsSevenElements := by
  unfold Obligations.InitResetsSevenElements
  intro s
  obtain ⟨hidle, hempty, hcursor, hbusy⟩ := initialised_flags s
  refine ⟨s.initialised, exec_init s, rfl, hidle, hempty, hcursor, hbusy, ?again, ?tick, fun _ _ => step_of_rst⟩
  case again => rw [exec_init, initialised_initialised]
  case tick => rw [exec_tick, tick_initialised]

end Sys2Proof.Machine
end

section
/-! Family 60_exceptions: no operation and no clock cycle stops (R170). -/

namespace Sys2Proof.Machine

/-- TICK and INIT have their own next states; every other operation is a write of the slot. -/
theorem exec_total (i : Instr) (s : State) : ∃ t, exec i s = .next t := by
  by_cases ht : i = .tick
  · subst ht
    exact ⟨(tick s).1, exec_tick s⟩
  by_cases hi : i = .init
  · subst hi
    exact ⟨s.initialised, exec_init s⟩
  obtain ⟨request, hexec⟩ := exec_eq_pendWrite ht hi s
  exact ⟨pendWrite request s, hexec⟩

/-- A list of events never stops: each is performed on the next state that the one before it has. -/
theorem runEvents_total (events : List Instr) (s : State) : ∃ t, runEvents events s = .next t := by
  induction events generalizing s with
  | nil => exact ⟨s, rfl⟩
  | cons i rest ih =>
    obtain ⟨u, hexec⟩ := exec_total i s
    rw [runEvents, hexec, chain_next]
    exact ih u

theorem clockCycle_total (c : Cycle) (s : State) : ∃ t, clockCycle c s = .next t :=
  runEvents_total (decodeCycle c) s

/-- Settles O10: a step is the clock cycle of the inputs it samples, a list of operations none of which stops. -/
theorem everyOperationCompletes : Obligations.EveryOperationCompletes :=
  ⟨exec_total, fun s => clockCycle_total (sampleInputs s).1 (sampleInputs s).2⟩

end Sys2Proof.Machine
end

section
/-! Family other, encoding: a canonical word is made again from what it decodes to, and what one clock cycle decodes to is
what the step runs. -/

namespace Sys2Proof

/-- Settles O1: each operation's cycle decodes to its operand fields, which the encoding filled. -/
theorem decodeOfEncodeIsInstr : Obligations.DecodeOfEncodeIsInstr := decodeCycle_encode

/-! A canonical word holds 0 in every field that its operation ignores (R76). -/

section canonical

variable {cw : CommandWord}

/-- A field of a canonical word that lies within the ignored bits is 0. -/
theorem extractLsb'_eq_zero_of_canonical {start len : Nat} (h : CommandWord.canonical cw = true)
    (hlen : start + len ≤ 42) (hignored : ∀ i < len, (CommandWord.ignoredBits cw).getLsbD (start + i) = true) :
    cw.extractLsb' start len = 0#len := by
  have hzero := (and_eq_zero_iff cw _).1 (of_decide_eq_true h)
  refine BitVec.eq_of_getLsbD_eq fun i hi => ?_
  rw [BitVec.getLsbD_extractLsb', hzero (start + i) (by omega) (hignored i hi), Bool.and_false, BitVec.getLsbD_zero]

/-- A word is the one put together from any field values that its fields have. -/
theorem requestWord_eq_of_fields {op : BitVec 2} {n : BitVec 8} {data : BitVec 32} (hop : CommandWord.op cw = op)
    (hn : CommandWord.count cw = n) (hdata : CommandWord.pattern cw = data) : requestWord op n data = cw := by
  rw [← hop, ← hn, ← hdata, requestWord_fields]

theorem ignoredBits_of_op {op : BitVec 2} (hop : CommandWord.op cw = op) :
    CommandWord.ignoredBits cw =
      if op = 0b00#2 then 0x0FFFFFF0000#42
      else if op = 0b01#2 then 0x000FFFF0000#42
      else if op = 0b10#2 then 0x0FF00000000#42
      else 0x0FFFFFFFFFF#42 := by
  rw [← Laws.ignoredBits_requestWord op (CommandWord.count cw) (CommandWord.pattern cw),
    requestWord_eq_of_fields hop rfl rfl]

/-- Only the cadence has a count operand. -/
theorem count_eq_zero_of_canonical (h : CommandWord.canonical cw = true) (hop : CommandWord.op cw ≠ 0b01#2) :
    CommandWord.count cw = 0#8 := by
  refine extractLsb'_eq_zero_of_canonical h (by decide) ?_
  rw [ignoredBits_of_op rfl]
  generalize CommandWord.op cw = op at hop
  revert op
  decide

/-- Where the operand is a duration, it is all that `data` holds. -/
theorem pattern_eq_setWidth_duration (h : CommandWord.canonical cw = true)
    (hop : CommandWord.op cw = 0b00#2 ∨ CommandWord.op cw = 0b01#2) :
    CommandWord.pattern cw = (CommandWord.duration cw).setWidth 32 := by
  have hhigh : cw.extractLsb' 16 16 = 0#16 := by
    refine extractLsb'_eq_zero_of_canonical h (by decide) ?_
    rcases hop with hop | hop <;> rw [ignoredBits_of_op hop] <;> decide
  refine BitVec.eq_of_getLsbD_eq fun i hi => ?_
  rw [CommandWord.pattern, CommandWord.duration, BitVec.getLsbD_setWidth, BitVec.getLsbD_extractLsb',
    BitVec.getLsbD_extractLsb']
  by_cases hlow : i < 16
  · simp [hi, hlow]
  · have hbit := congrArg (fun v => v.getLsbD (i - 16)) hhigh
    have hplace : 16 + (i - 16) = i := by omega
    simpa [hi, hlow, hplace, show i - 16 < 16 by omega] using hbit

end canonical

/-- Settles O2: in each operand field that the operation has not, the word holds the 0 that the encoding writes there. -/
theorem encodeOfDecodeIsCanonicalWord : Obligations.EncodeOfDecodeIsCanonicalWord := by
  unfold Obligations.EncodeOfDecodeIsCanonicalWord
  intro cw h
  have hcodes : ∀ op : BitVec 2, op = 0b00#2 ∨ op = 0b01#2 ∨ op = 0b10#2 ∨ op = 0b11#2 := by decide
  have hcount : CommandWord.op cw ≠ 0b01#2 → CommandWord.count cw = 0#8 := count_eq_zero_of_canonical h
  rcases hcodes (CommandWord.op cw) with hop | hop | hop | hop
  · rw [decodeWord_of_op_duration hop, encodeWord,
      requestWord_eq_of_fields hop (hcount (by simp [hop])) (pattern_eq_setWidth_duration h (.inl hop))]
  · rw [decodeWord_of_op_cadence hop, encodeWord,
      requestWord_eq_of_fields hop rfl (pattern_eq_setWidth_duration h (.inr hop))]
  · rw [decodeWord_of_op_pattern hop, encodeWord, requestWord_eq_of_fields hop (hcount (by simp [hop])) rfl]
  · have hdata : CommandWord.pattern cw = 0#32 :=
      extractLsb'_eq_zero_of_canonical h (by decide) (by rw [ignoredBits_of_op hop]; decide)
    rw [decodeWord_of_op_reserved hop, encodeWord, requestWord_eq_of_fields hop (hcount (by simp [hop])) hdata]

/-- Settles O4: each word is evaluated. -/
theorem sampleWordsDecode : Obligations.SampleWordsDecode := by
  unfold Obligations.SampleWordsDecode
  decide

/-- The cycle that presents a table row asks for a single operation: a command word, or the one strobe that counts. -/
theorem decodeCycle_of_tableCycle {nbits w : Nat} {c : Cycle} (h : tableCycle nbits w = .ok c) :
    ∃ i, decodeCycle c = [i] := by
  unfold tableCycle at h
  split_ifs at h with hword hfits hstrobe hbits
  case pos =>
    obtain rfl : requestCycle (BitVec.ofNat 42 w) = c := Except.ok.inj h
    exact ⟨_, decodeCycle_requestCycle _⟩
  case pos =>
    rcases hbits with rfl | rfl | rfl <;> obtain rfl := Except.ok.inj h
    · exact ⟨.tick, rfl⟩
    · exact ⟨.init, rfl⟩
    · exact ⟨.init, rfl⟩

/-- The instruction read from a table row is all that the row's cycle decodes to. -/
theorem decodeCycle_of_decodeTableWord {nbits w : Nat} {i : Instr} (h : decodeTableWord nbits w = some i) :
    ∃ c, tableCycle nbits w = .ok c ∧ decodeCycle c = [i] := by
  unfold decodeTableWord at h
  cases hrow : tableCycle nbits w with
  | error r => simp [hrow] at h
  | ok c =>
    obtain ⟨j, hj⟩ := decodeCycle_of_tableCycle hrow
    have hij : j = i := by simpa [hrow, hj] using h
    exact ⟨c, rfl, hij ▸ hj⟩

end Sys2Proof

namespace Sys2Proof.Machine

/-- Settles O5: the step performs the cycle's one event, on the state without the cycle's inputs. -/
theorem stepRunsDecodedInstruction : Obligations.StepRunsDecodedInstruction := by
  unfold Obligations.StepRunsDecodedInstruction
  intro s c rest i hinputs hc
  rw [step_of_inputs_cons hinputs hc, runEvents_singleton]

/-- Settles O6: the cycle that presents the row decodes to the instruction alone. -/
theorem tableWordRunsItsInstruction : Obligations.TableWordRunsItsInstruction := by
  unfold Obligations.TableWordRunsItsInstruction
  intro s nbits w i h
  obtain ⟨c, hrow, hc⟩ := decodeCycle_of_decodeTableWord h
  rw [step_withFetchWord hrow, clockCycle, hc, runEvents_singleton]

/-- Settles O8: the idle cycle, sampled where no inputs wait, decodes to no event. -/
theorem stepWithoutInputsIsIdle : Obligations.StepWithoutInputsIsIdle := by
  unfold Obligations.StepWithoutInputsIsIdle
  intro s hinputs
  have hidle : decodeCycle Cycle.idle = [] := decodeCycle_of_no_strobe rfl rfl rfl
  rw [step, sampleInputs_nil hinputs, clockCycle, hidle, runEvents]

end Sys2Proof.Machine
end

section
/-! Family other, the Playback Engine: the TICK that starts a repetition, the pick-up, and the invariants of every state. -/

namespace Sys2Proof.Machine

/-! ## The start of a repetition (R123) and the pick-up (R121) -/

section start

variable {s : State}

/-- A Playing engine without a cursor returns ON and leaves the cursor one place below the most-significant set bit `m`, or
the repetition ended where `m` is 0. -/
theorem tick_of_playing_no_cursor {m : Nat} (h : s.actRep ≠ 0#8) (hm : s.curMask = 0#8) (htop : IsTopBit s.actPat m) :
    (tick s).1 = if m = 0 then
        { s with actRep := s.actRep - 1#8, curByte := 0#2, curMask := 0#8, out := .on }
      else
        { s with curByte := BitVec.ofNat 2 ((m - 1) / 8), curMask := BitVec.ofNat 8 (2 ^ ((m - 1) % 8)), out := .on } := by
  rw [tick_of_playing_located h htop.ne_zero, located_of_no_cursor hm, cursorLevel_locateCursor htop.ne_zero,
    advanceCursor_of_cursorAt (locateCursor_cursorAt htop), locateCursor_of_isTopBit htop]
  by_cases hm0 : m = 0
  · subst hm0
    rfl
  · rw [if_neg hm0, if_neg hm0]
    rfl

/-- A TICK after the pick-up is a TICK before it: there is nothing to pick up twice. -/
theorem tick_pickUp (s : State) : tick (pickUp s) = tick s := by
  have htwice : pickUp (pickUp s) = pickUp s := by
    rcases pickUp_cases s with ⟨-, -, hpick⟩ | ⟨-, hpick⟩
    · rw [hpick]
      exact pickUp_of_empty rfl
    · rw [hpick, hpick]
  rw [tick, tick, engineStep, engineStep, htwice]

/-- A TICK of an Idle engine with a request waiting is the first TICK of that request, already active. -/
theorem tick_of_waiting_eq (h : s.actRep = 0#8) (hr : s.pendRep ≠ 0#8) :
    tick s = tick { s with actPat := s.pendPat, actRep := s.pendRep, pendRep := 0#8 } := by
  rw [← tick_pickUp s, pickUp_of_waiting h hr]

end start

/-- Settles O25: the cursor is located at `m`, whose bit is set, and advances from there. -/
theorem tickRestartsRepetition : Obligations.TickRestartsRepetition := by
  unfold Obligations.TickRestartsRepetition
  intro s m h hm htop
  rw [exec_tick, tick_of_playing_no_cursor h hm htop]

/-- Settles O24: after the pick-up the engine is Playing without a cursor. -/
theorem tickPicksUpRequest : Obligations.TickPicksUpRequest := by
  unfold Obligations.TickPicksUpRequest
  intro s m h hm hr htop
  have hstart := tick_of_playing_no_cursor
    (s := { s with actPat := s.pendPat, actRep := s.pendRep, pendRep := 0#8 }) hr hm htop
  rw [exec_tick, tick_of_waiting_eq h hr, hstart]

/-- Settles O36: a Playing engine's TICK ends in one advance of the cursor, which takes at most one from the count. -/
theorem repCountFallsByOneAtMost : Obligations.RepCountFallsByOneAtMost := by
  unfold Obligations.RepCountFallsByOneAtMost
  intro s h hp
  refine ⟨(tick s).1, exec_tick s, ?_⟩
  rw [tick_of_playing_located h hp, setLevel_actRep]
  have hpos : 0 < s.actRep.toNat := toNat_pos_of_ne_zero h
  have hless : (s.actRep - 1#8).toNat = s.actRep.toNat - 1 := toNat_sub_one h
  rcases advanceCursor_cases s.located with hadv | hadv | hadv
  · exact .inl (by rw [hadv, located_actRep])
  · exact .inl (by rw [hadv, located_actRep])
  · refine .inr ?_
    rw [hadv, located_actRep, hless]
    omega

/-! ## The invariants (R30 to R33) -/

section invariants

variable {s : State}

theorem inv_of_idle (h : s.actRep = 0#8) (hm : s.curMask = 0#8) : s.Inv :=
  ⟨fun _ => hm, fun hplaying => absurd h hplaying, .inl hm, fun hne => absurd hm hne⟩

theorem State.Inv.curMask_of_idle (hinv : s.Inv) (h : s.actRep = 0#8) : s.curMask = 0#8 := by
  obtain ⟨hcursor, -, -, -⟩ := hinv
  exact hcursor h

/-- The pick-up of a playable request leaves a Playing engine that meets the invariants. -/
theorem inv_of_picked_up (hm : s.curMask = 0#8) (hp : s.pendPat ≠ 0#32) :
    ({ s with actPat := s.pendPat, actRep := s.pendRep, pendRep := 0#8 } : State).Inv :=
  inv_of_no_cursor hm hp

/-- A TICK keeps the invariants, by what the engine does in it: nothing, the pick-up of a zero pattern, the first TICK of a
request, or a further one. -/
theorem tick_inv (hinv : s.Inv) : (tick s).1.Inv := by
  by_cases h : s.actRep = 0#8
  case neg => exact (tick_inv_ticksLeft_of_playing hinv h).1
  have hm : s.curMask = 0#8 := hinv.curMask_of_idle h
  by_cases hr : s.pendRep = 0#8
  case pos =>
    rw [tick_of_idle h hr]
    exact inv_of_idle h hm
  by_cases hp : s.pendPat = 0#32
  case pos =>
    rw [tick_of_waiting_zero h hr hp]
    exact inv_of_idle rfl hm
  rw [tick_of_waiting_eq h hr]
  exact (tick_inv_ticksLeft_of_playing (inv_of_picked_up hm hp) hr).1

/-- Every operation keeps the invariants: INIT leaves an Idle engine, and one that is no TICK writes the slot alone, which
the invariants do not speak of. -/
theorem exec_inv {i : Instr} {t : State} (hinv : s.Inv) (h : exec i s = .next t) : t.Inv := by
  by_cases ht : i = .tick
  · subst ht
    rw [← Host.Outcome.next.inj h]
    exact tick_inv hinv
  by_cases hi : i = .init
  · subst hi
    rw [← Host.Outcome.next.inj h]
    exact inv_of_idle rfl rfl
  obtain ⟨request, hexec⟩ := exec_eq_pendWrite ht hi s
  rw [← Host.Outcome.next.inj (hexec.symm.trans h)]
  exact hinv

theorem runEvents_inv {events : List Instr} {t : State} (hinv : s.Inv) (h : runEvents events s = .next t) : t.Inv := by
  induction events generalizing s with
  | nil => exact Host.Outcome.next.inj h ▸ hinv
  | cons i rest ih =>
    obtain ⟨u, hexec, hrest⟩ := runEvents_cons_next h
    exact ih (exec_inv hinv hexec) hrest

/-- Taking the next cycle's inputs leaves the seven elements, and so the invariants, as they are. -/
theorem sampleInputs_inv (hinv : s.Inv) : (sampleInputs s).2.Inv := by
  cases hinputs : s.inputs with
  | nil => rwa [sampleInputs_nil hinputs]
  | cons c rest =>
    rw [sampleInputs_cons hinputs]
    exact hinv

end invariants

/-- Settles O41: a step samples its inputs and performs a list of operations, each of which keeps the invariants. -/
theorem stepKeepsInv : Obligations.StepKeepsInv := by
  unfold Obligations.StepKeepsInv
  intro s t hinv h
  exact runEvents_inv (sampleInputs_inv hinv) h

/-- Settles O40: after reset the engine is Idle without a cursor. -/
theorem resetSatisfiesInv : Obligations.ResetSatisfiesInv := inv_of_idle rfl rfl

/-! ## The flat view (R130) -/

section flat

variable {s : State}

theorem flat_of_no_cursor (hm : s.curMask = 0#8) :
    s.flat = { pendPat := s.pendPat, pendRep := s.pendRep, actPat := s.actPat, actRep := s.actRep, pos := none } := by
  rw [State.flat, if_pos hm]

theorem flat_of_cursorAt {k : Nat} (hc : CursorAt s k) :
    s.flat = { pendPat := s.pendPat, pendRep := s.pendRep, actPat := s.actPat, actRep := s.actRep, pos := some k } := by
  rw [State.flat, if_neg hc.curMask_ne_zero, hc.pos_eq]

theorem flat_setLevel (level : Level) (s : State) : (setLevel level s).flat = s.flat := rfl

/-- The flat view of an advance: one place down, or the end of the repetition. -/
theorem flat_advanceCursor {k : Nat} (hc : CursorAt s k) :
    (advanceCursor s).flat =
      if k = 0 then { s.flat with pos := none, actRep := s.actRep - 1#8 } else { s.flat with pos := some (k - 1) } := by
  rw [advanceCursor_of_cursorAt hc]
  by_cases hk : k = 0
  · rw [if_pos hk, if_pos hk, flat_of_no_cursor rfl]
    rfl
  · obtain ⟨hlt, -, -⟩ := hc
    have hlower : CursorAt
        { s with curByte := BitVec.ofNat 2 ((k - 1) / 8), curMask := BitVec.ofNat 8 (2 ^ ((k - 1) % 8)) } (k - 1) :=
      ⟨by omega, rfl, rfl⟩
    rw [if_neg hk, if_neg hk, flat_of_cursorAt hlower]
    rfl

/-- The flat engine's TICK when it is Playing: the played bit's level, and one place down or the repetition's end. -/
theorem flatTick_of_playing {f : Flat} (h : f.actRep ≠ 0#8) (hp : f.actPat ≠ 0#32) :
    flatTick f =
      (if f.playedBit = 0 then { f with pos := none, actRep := f.actRep - 1#8 }
        else { f with pos := some (f.playedBit - 1) }, Level.ofBit (f.actPat.getLsbD f.playedBit)) := by
  have hpick : f.pickUp = f := if_neg fun hidle => h hidle.1
  have hzero : f.resolveZero = f := if_neg hp
  simp only [flatTick, hpick, hzero, if_neg h]
  by_cases hk : f.playedBit = 0
  · rw [if_pos hk, if_pos hk, hk]
  · rw [if_neg hk, if_neg hk]

/-- The flat engine, too, plays a request picked up as one already active. -/
theorem flatTick_of_waiting_eq {f : Flat} (h : f.actRep = 0#8) (hr : f.pendRep ≠ 0#8) :
    flatTick f = flatTick { f with actPat := f.pendPat, actRep := f.pendRep, pendRep := 0#8 } := by
  have hpick : f.pickUp = { f with actPat := f.pendPat, actRep := f.pendRep, pendRep := 0#8 } := if_pos ⟨h, hr⟩
  have hagain : ({ f with actPat := f.pendPat, actRep := f.pendRep, pendRep := 0#8 } : Flat).pickUp =
      { f with actPat := f.pendPat, actRep := f.pendRep, pendRep := 0#8 } := if_neg fun hidle => hr hidle.1
  simp only [flatTick, hpick, hagain]

theorem flatTick_of_idle {f : Flat} (h : f.actRep = 0#8) (hr : f.pendRep = 0#8) : flatTick f = (f, .off) := by
  have hpick : f.pickUp = f := if_neg fun hwaiting => hwaiting.2 hr
  have hzero : f.resolveZero = f := by
    rw [Flat.resolveZero, ← h, ite_self]
  simp only [flatTick, hpick, hzero, if_pos h]

theorem flatTick_of_waiting_zero {f : Flat} (h : f.actRep = 0#8) (hr : f.pendRep ≠ 0#8) (hp : f.pendPat = 0#32) :
    flatTick f = ({ f with actPat := 0#32, actRep := 0#8, pendRep := 0#8 }, .off) := by
  have hpick : f.pickUp = { f with actPat := 0#32, actRep := f.pendRep, pendRep := 0#8 } := by
    rw [← hp]
    exact if_pos ⟨h, hr⟩
  simp only [flatTick, hpick, Flat.resolveZero, if_true]

/-- Locating the cursor puts it on the bit that the flat engine plays next. -/
theorem flat_located (hinv : s.Inv) (hp : s.actPat ≠ 0#32) :
    s.located.flat = { s.flat with pos := some s.flat.playedBit } := by
  rw [flat_of_cursorAt (hinv.located_cursorAt hp)]
  by_cases hm : s.curMask = 0#8
  · rw [located_of_no_cursor hm]
    rfl
  · rw [located_of_cursor hm]
    rfl

/-- A Playing engine's TICK is the flat engine's. -/
theorem tick_flat_of_playing (hinv : s.Inv) (h : s.actRep ≠ 0#8) :
    (tick s).1.flat = (flatTick s.flat).1 ∧ (tick s).2 = (flatTick s.flat).2 := by
  have hp : s.actPat ≠ 0#32 := hinv.actPat_ne_zero h
  have hc : CursorAt s.located s.flat.playedBit := hinv.located_cursorAt hp
  rw [tick_of_playing_located h hp, flatTick_of_playing (f := s.flat) h hp]
  constructor
  · rw [flat_setLevel, flat_advanceCursor hc, flat_located hinv hp, located_actRep]
    rfl
  · rw [cursorLevel_of_cursorAt hc, located_actPat]
    rfl

end flat

/-- Settles O27: both engines pick the same request up, rest on the same states, and play alike. -/
theorem flatViewAgrees : Obligations.FlatViewAgrees := by
  unfold Obligations.FlatViewAgrees
  intro s hinv
  suffices hagree : (tick s).1.flat = (flatTick s.flat).1 ∧ (tick s).2 = (flatTick s.flat).2 from
    ⟨hagree.1, hagree.2, exec_tick s⟩
  by_cases h : s.actRep = 0#8
  case neg => exact tick_flat_of_playing hinv h
  have hm : s.curMask = 0#8 := hinv.curMask_of_idle h
  by_cases hr : s.pendRep = 0#8
  case pos =>
    rw [tick_of_idle h hr, flatTick_of_idle (f := s.flat) h hr]
    exact ⟨rfl, rfl⟩
  by_cases hp : s.pendPat = 0#32
  case pos =>
    rw [tick_of_waiting_zero h hr hp, flatTick_of_waiting_zero (f := s.flat) h hr hp]
    exact ⟨rfl, rfl⟩
  rw [tick_of_waiting_eq h hr, flatTick_of_waiting_eq (f := s.flat) h hr]
  exact tick_flat_of_playing (inv_of_picked_up hm hp) hr

end Sys2Proof.Machine
end

section
/-! Family other, requests: the patterns the encoder makes, and the slot they are written to. -/

namespace Sys2Proof.Machine

/-! ## BEEP_DURATION and BEEP_PATTERN (R89 to R91, R96) -/

theorem pendRep_of_exec_beepDuration {d : Duration} {s t : State} (h : exec (.beepDuration d) s = .next t) :
    t.pendRep = 1#8 := by
  rw [exec_beepDuration] at h
  cases h
  rfl

theorem getLsbD_encDuration (d : Duration) (i : Nat) :
    (encDuration d).1.getLsbD i = decide (i < min (d.toNat * 16 / 1000) 32) :=
  getLsbD_lowBits (durationTicks_le d) i

theorem encDuration_mono {d₁ d₂ : Duration} (h : d₁ ≤ d₂) : (encDuration d₁).1 ≤ (encDuration d₂).1 := by
  rw [BitVec.le_def, encDuration_toNat, encDuration_toNat]
  exact Nat.sub_le_sub_right (Nat.pow_le_pow_right (by decide) (durationTicks_mono h)) 1

/-- Settles O13: the pattern's set bits are those below the saturated tick count, which the caller's range does not reach. -/
theorem durationLawAndMonotone : Obligations.DurationLawAndMonotone := by
  unfold Obligations.DurationLawAndMonotone
  refine ⟨fun d s t ht => ⟨pendRep_of_exec_beepDuration ht, fun hrange i => ?inRange, fun i => ?saturated⟩,
    fun d₁ d₂ s t₁ t₂ hd h₁ h₂ => ?monotone⟩
  case inRange =>
    have hd : d.toNat ≤ 1999 := of_decide_eq_true hrange
    have hmin : min (d.toNat * 16 / 1000) 32 = d.toNat * 16 / 1000 := by omega
    rw [pendPat_of_exec_beepDuration ht, getLsbD_encDuration, hmin]
  case saturated => rw [pendPat_of_exec_beepDuration ht, getLsbD_encDuration]
  case monotone =>
    rw [pendPat_of_exec_beepDuration h₁, pendPat_of_exec_beepDuration h₂]
    exact encDuration_mono hd

theorem exec_beepPattern (p : Pattern) (s : State) :
    exec (.beepPattern p) s = .next { s with pendPat := p, pendRep := 1#8 } := rfl

/-- Settles O17: the operand is the pattern, and the count 1 makes the CORE busy. -/
theorem beepPatternWritesSlot : Obligations.BeepPatternWritesSlot := by
  unfold Obligations.BeepPatternWritesSlot
  intro p s
  have hcount : (1#8 : RepCount) ≠ 0#8 := by decide
  exact ⟨exec_beepPattern p s, busy_of_pendRep_ne_zero hcount⟩

/-! ## BEEP_CADENCE (R93, R94) -/

section cadence

variable {t : Nat}

theorem cadenceTicks_le (d : Duration) : cadenceTicks d ≤ 16 := Nat.min_le_right _ _

theorem toNat_cadencePattern_low (h : t ≤ 16) : (cadencePattern .low t).toNat = 2 ^ t - 1 :=
  toNat_ofNat_lowBits (by omega)

theorem toNat_cadencePattern_high (h : t ≤ 16) : (cadencePattern .high t).toNat = (2 ^ t - 1) * 2 ^ t := by
  have hpow : 2 ^ t ≤ 2 ^ 16 := Nat.pow_le_pow_right (by decide) h
  have hfits : (2 ^ t - 1) * 2 ^ t < 2 ^ 32 :=
    calc (2 ^ t - 1) * 2 ^ t
        ≤ (2 ^ 16 - 1) * 2 ^ 16 := Nat.mul_le_mul (by omega) hpow
      _ < 2 ^ 32 := by decide
  rw [cadencePattern, lowBits_eq, Nat.shiftLeft_eq, BitVec.toNat_ofNat, Nat.mod_eq_of_lt hfits]

/-- Without a tick the cadence cycle is empty in either layout. -/
theorem cadencePattern_zero (layout : CadenceLayout) : cadencePattern layout 0 = 0#32 := by
  cases layout <;> rfl

end cadence

/-- Settles O15: the pattern is that of `min(TICKS(d), 16)` ticks per phase, at most half a pattern each. -/
theorem beepCadenceWritesSlot : Obligations.BeepCadenceWritesSlot := by
  unfold Obligations.BeepCadenceWritesSlot
  intro n d s
  refine ⟨cadencePattern s.cadenceLayout (cadenceTicks d), exec_beepCadence n d s, fun hlow => ?low, fun hhigh => ?high,
    rfl, rfl⟩
  case low => rw [hlow, toNat_cadencePattern_low (cadenceTicks_le d), cadenceTicks_eq]
  case high => rw [hhigh, toNat_cadencePattern_high (cadenceTicks_le d), cadenceTicks_eq]

/-- Settles O19: such a duration has no tick, so that each encoder's pattern has no set bit. -/
theorem shortDurationsEncodeZeroPattern : Obligations.ShortDurationsEncodeZeroPattern := by
  unfold Obligations.ShortDurationsEncodeZeroPattern
  intro n d s hd
  have hticks : durationTicks d = 0 := by
    rw [durationTicks_eq]
    omega
  have hphase : cadenceTicks d = 0 := by
    rw [cadenceTicks_eq]
    omega
  constructor
  · rw [exec_beepDuration, encDuration, hticks]
    rfl
  · rw [exec_beepCadence, hphase, cadencePattern_zero]

/-! ## The slot (R110, R113, R114) -/

/-- Settles O21: the count 0 is the empty slot, from which an Idle engine's TICK takes nothing. -/
theorem cadenceZeroCancelsPendingRequest : Obligations.CadenceZeroCancelsPendingRequest := by
  unfold Obligations.CadenceZeroCancelsPendingRequest
  intro d s
  exact ⟨cadencePattern s.cadenceLayout (cadenceTicks d), exec_beepCadence 0#8 d s,
    fun h => (idleTicksAreAFixedPoint (pendWrite (encCadence s.cadenceLayout 0#8 d) s) h rfl).1⟩

/-- Ticks of a Playing engine commute with a write of the slot. -/
theorem tickTimes_pendWrite_of_playing (request : Pattern × RepCount) (k : Nat) {s : State}
    (h : ∀ m, m < k → (tickTimes m s).actRep ≠ 0#8) :
    tickTimes k (pendWrite request s) = pendWrite request (tickTimes k s) := by
  induction k generalizing s with
  | zero => rfl
  | succ k ih =>
    have hnow : s.actRep ≠ 0#8 := h 0 (Nat.succ_pos k)
    have hlater : ∀ m, m < k → (tickTimes m (tick s).1).actRep ≠ 0#8 := fun m hm => h (m + 1) (Nat.succ_lt_succ hm)
    rw [tickTimes, tickTimes, tick_pendWrite_of_playing request hnow, ih hlater]

/-- A request leaves no trace of what the slot held. -/
theorem exec_request_pendWrite {i : Instr} (h : i.isRequest = true) (request : Pattern × RepCount) (s : State) :
    exec i (pendWrite request s) = exec i s := by
  obtain ⟨own, hexec⟩ := exec_request_of_layout h s.cadenceLayout
  rw [hexec s rfl, hexec (pendWrite request s) (pendWrite_cadenceLayout request s)]
  rfl

/-- Settles O20: the earlier request's write moves past the TICKs and is overwritten by the later one. -/
theorem laterRequestDecidesSlot : Obligations.LaterRequestDecidesSlot := by
  unfold Obligations.LaterRequestDecidesSlot
  intro i j k s hi hj hplaying
  obtain ⟨request, hexec⟩ := exec_request_cases hi s
  refine ⟨pendWrite request s, hexec, ?_⟩
  rw [tickTimes_pendWrite_of_playing request k hplaying, exec_request_pendWrite hj]

end Sys2Proof.Machine
end

section
/-! Family other, whole requests: the levels that a request returns, how long it plays, and what WAIT and `busy` make of
it. -/

namespace Sys2Proof.Machine

/-! ## The levels left of the active request, in the flat view (R130) -/

/-- The levels of the bits `m` down to 0 of `p`. -/
def levelsFrom (p : Pattern) (m : Nat) : List Level := (List.range (m + 1)).map fun k => Level.ofBit (p.getLsbD (m - k))

theorem levelsFrom_zero (p : Pattern) : levelsFrom p 0 = [Level.ofBit (p.getLsbD 0)] := rfl

theorem levelsFrom_succ (p : Pattern) (m : Nat) :
    levelsFrom p (m + 1) = Level.ofBit (p.getLsbD (m + 1)) :: levelsFrom p m := by
  rw [levelsFrom, List.range_succ_eq_map, List.map_cons, List.map_map, levelsFrom]
  simp [Function.comp_def]

/-- The levels that the flat engine has still to return: of the running repetition, then of each further one. -/
def Flat.levelsLeft (f : Flat) : List Level :=
  if f.actRep = 0#8 then []
  else levelsFrom f.actPat f.playedBit ++
    (List.replicate (f.actRep.toNat - 1) (levelsFrom f.actPat (msbIndex f.actPat))).flatten

section levelsLeft

variable {f : Flat}

theorem levelsLeft_of_idle (h : f.actRep = 0#8) : f.levelsLeft = [] := if_pos h

theorem levelsLeft_of_playing (h : f.actRep ≠ 0#8) :
    f.levelsLeft = levelsFrom f.actPat f.playedBit ++
      (List.replicate (f.actRep.toNat - 1) (levelsFrom f.actPat (msbIndex f.actPat))).flatten := if_neg h

/-- Between two repetitions those left are whole ones. -/
theorem levelsLeft_of_no_pos (hpos : f.pos = none) :
    f.levelsLeft = (List.replicate f.actRep.toNat (levelsFrom f.actPat (msbIndex f.actPat))).flatten := by
  by_cases h : f.actRep = 0#8
  · rw [levelsLeft_of_idle h, h]
    rfl
  · have hstart : f.playedBit = msbIndex f.actPat := by rw [Flat.playedBit, hpos, Option.getD_none]
    have hrep : f.actRep.toNat = f.actRep.toNat - 1 + 1 := (Nat.sub_add_cancel (toNat_pos_of_ne_zero h)).symm
    rw [levelsLeft_of_playing h, hstart, hrep, List.replicate_succ, List.flatten_cons, Nat.add_sub_cancel]

/-- A TICK of the Playing flat engine returns the first of the levels left and leaves the others. -/
theorem levelsLeft_flatTick (h : f.actRep ≠ 0#8) (hp : f.actPat ≠ 0#32) :
    f.levelsLeft = (flatTick f).2 :: (flatTick f).1.levelsLeft := by
  rw [flatTick_of_playing h hp, levelsLeft_of_playing h]
  cases hk : f.playedBit with
  | zero =>
    rw [if_pos rfl, levelsLeft_of_no_pos rfl, toNat_sub_one h, levelsFrom_zero]
    rfl
  | succ k =>
    have hlower : ({ f with pos := some k } : Flat).levelsLeft = levelsFrom f.actPat k ++
        (List.replicate (f.actRep.toNat - 1) (levelsFrom f.actPat (msbIndex f.actPat))).flatten :=
      levelsLeft_of_playing (f := { f with pos := some k }) h
    rw [if_neg (Nat.succ_ne_zero k), Nat.add_sub_cancel, hlower, levelsFrom_succ]
    rfl

end levelsLeft

/-! ## The ticks of an active request (R131, R132) -/

section active

variable {s : State}

theorem ticksLeft_pos_iff : 0 < ticksLeft s ↔ s.actRep ≠ 0#8 := by
  refine ⟨playing_of_ticksLeft_pos, fun h => ?_⟩
  rw [ticksLeft_of_playing h]
  omega

theorem ticksLeft_eq_zero_iff : ticksLeft s = 0 ↔ s.actRep = 0#8 :=
  not_iff_not.1 (Nat.pos_iff_ne_zero.symm.trans ticksLeft_pos_iff)

theorem levelsLeft_of_no_cursor (hm : s.curMask = 0#8) :
    s.flat.levelsLeft = (List.replicate s.actRep.toNat (levelsFrom s.actPat (msbIndex s.actPat))).flatten := by
  have hpos : s.flat.pos = none := by rw [flat_of_no_cursor hm]
  exact levelsLeft_of_no_pos hpos

/-- The TICKs left return the levels left. -/
theorem tickLevels_ticksLeft {k : Nat} (hinv : s.Inv) (hk : ticksLeft s = k) :
    tickLevels k s = s.flat.levelsLeft := by
  induction k generalizing s with
  | zero =>
    have hidle : s.flat.actRep = 0#8 := ticksLeft_eq_zero_iff.1 hk
    rw [levelsLeft_of_idle hidle, tickLevels]
  | succ k ih =>
    have h : s.actRep ≠ 0#8 := ticksLeft_pos_iff.1 (by omega)
    obtain ⟨hinv', hleft⟩ := tick_inv_ticksLeft_of_playing hinv h
    obtain ⟨hflat, hlevel⟩ := tick_flat_of_playing hinv h
    rw [levelsLeft_flatTick (f := s.flat) h (hinv.actPat_ne_zero h), ← hflat, ← hlevel, tickLevels, ih hinv' (by omega)]

/-- `k` TICKs take `k` from the ticks left, while there are so many. -/
theorem ticksLeft_tickTimes {k : Nat} (hinv : s.Inv) (hk : k ≤ ticksLeft s) :
    ticksLeft (tickTimes k s) + k = ticksLeft s := by
  induction k generalizing s with
  | zero => rfl
  | succ k ih =>
    have h : s.actRep ≠ 0#8 := ticksLeft_pos_iff.1 (by omega)
    obtain ⟨hinv', hleft⟩ := tick_inv_ticksLeft_of_playing hinv h
    have hrest : ticksLeft (tickTimes k (tick s).1) + k = ticksLeft (tick s).1 := ih hinv' (by omega)
    rw [tickTimes]
    omega

end active

/-! ## The ticks of a waiting request (R121, R163) -/

section waiting

variable {s : State}

theorem tickLevels_pickUp (k : Nat) (s : State) : tickLevels k (pickUp s) = tickLevels k s := by
  cases k with
  | zero => rfl
  | succ k => rw [tickLevels, tickLevels, tick_pickUp]

theorem tickTimes_succ_pickUp (k : Nat) (s : State) : tickTimes (k + 1) (pickUp s) = tickTimes (k + 1) s := by
  rw [tickTimes, tickTimes, tick_pickUp]

theorem slotTicks_of_empty (hr : s.pendRep = 0#8) : slotTicks s = 0 := by
  simp [slotTicks, State.pendEmpty, hr]

theorem slotTicks_of_zero (hr : s.pendRep ≠ 0#8) (hp : s.pendPat = 0#32) : slotTicks s = 1 := by
  simp [slotTicks, State.pendEmpty, hr, hp]

theorem slotTicks_of_ne_zero (hp : s.pendPat ≠ 0#32) : slotTicks s = s.pendRep.toNat * patternLength s.pendPat := by
  by_cases hr : s.pendRep = 0#8
  · simp [slotTicks_of_empty hr, hr]
  · simp [slotTicks, State.pendEmpty, hr, hp]

theorem slotTicks_of_isTopBit {m : Nat} (htop : IsTopBit s.pendPat m) : slotTicks s = s.pendRep.toNat * (m + 1) := by
  rw [slotTicks_of_ne_zero htop.ne_zero, patternLength, htop.msbIndex_eq]

theorem slotTicks_pos_iff : 0 < slotTicks s ↔ s.pendRep ≠ 0#8 := by
  constructor
  · intro hpos hr
    rw [slotTicks_of_empty hr] at hpos
    exact Nat.lt_irrefl 0 hpos
  · intro hr
    by_cases hp : s.pendPat = 0#32
    · rw [slotTicks_of_zero hr hp]
      exact Nat.one_pos
    · rw [slotTicks_of_ne_zero hp]
      exact Nat.mul_pos (toNat_pos_of_ne_zero hr) (Nat.succ_pos _)

/-- The pick-up makes the ticks of the waiting request those of the active one. -/
theorem ticksLeft_pickUp (h : s.actRep = 0#8) (hm : s.curMask = 0#8) (hr : s.pendRep ≠ 0#8) (hp : s.pendPat ≠ 0#32) :
    (pickUp s).Inv ∧ ticksLeft (pickUp s) = slotTicks s ∧ slotTicks (pickUp s) = 0 := by
  rw [pickUp_of_waiting h hr, slotTicks_of_ne_zero hp]
  exact ⟨inv_of_picked_up hm hp, ticksLeft_of_no_cursor hm, slotTicks_of_empty rfl⟩

end waiting

/-- Settles O28: the request picked up has all its repetitions left, whose levels its ticks return, and it plays until none
is left. -/
theorem requestPlaysItsRepetitions : Obligations.RequestPlaysItsRepetitions := by
  unfold Obligations.RequestPlaysItsRepetitions
  intro s m h hm hr htop
  obtain ⟨hinv, hleft, -⟩ := ticksLeft_pickUp h hm hr htop.ne_zero
  rw [slotTicks_of_isTopBit htop] at hleft
  have htimes : ∀ k, 0 < k → k ≤ s.pendRep.toNat * (m + 1) →
      ticksLeft (tickTimes k s) + k = s.pendRep.toNat * (m + 1) := by
    intro k hpos hk
    obtain ⟨j, rfl⟩ := Nat.exists_eq_add_one_of_ne_zero hpos.ne'
    rw [← tickTimes_succ_pickUp, ← hleft]
    exact ticksLeft_tickTimes hinv (hleft ▸ hk)
  refine ⟨?levels, fun k hpos hk => ?playing, ?idle⟩
  case levels =>
    have hlevels : (pickUp s).flat.levelsLeft =
        (List.replicate s.pendRep.toNat (levelsFrom s.pendPat (msbIndex s.pendPat))).flatten := by
      rw [pickUp_of_waiting h hr]
      exact levelsLeft_of_no_cursor hm
    rw [← tickLevels_pickUp, tickLevels_ticksLeft hinv hleft, hlevels, htop.msbIndex_eq, levelsFrom]
  case playing =>
    have hsome := htimes k hpos hk.le
    exact decide_eq_true (ticksLeft_pos_iff.1 (by omega))
  case idle =>
    have htotal : 0 < s.pendRep.toNat * (m + 1) := Nat.mul_pos (toNat_pos_of_ne_zero hr) (Nat.succ_pos m)
    have hnone := htimes _ htotal le_rfl
    exact decide_eq_true (ticksLeft_eq_zero_iff.1 (by omega))

/-! ## WAIT and `busy` (R160 to R163) -/

section wait

variable {s : State}

/-- `busy` while there are ticks to wait for. -/
theorem busy_iff : s.busy = true ↔ 0 < ticksLeft s + slotTicks s := by
  rw [Nat.add_pos_iff_pos_or_pos, ticksLeft_pos_iff, slotTicks_pos_iff, or_comm]
  exact decide_eq_true_iff

theorem busy_of_idle (h : s.actRep = 0#8) : s.busy = !s.pendEmpty := by
  simp [State.busy, State.pendEmpty, h]

/-- A TICK of a busy CORE takes one from the ticks to wait for: from the active request, or, where the engine is Idle, from
the waiting one, whose zero pattern has one. -/
theorem tick_takes_one_of_busy (hinv : s.Inv) (hbusy : s.busy = true) :
    ticksLeft (tick s).1 + slotTicks (tick s).1 + 1 = ticksLeft s + slotTicks s := by
  have hplaying : ∀ u : State, u.Inv → u.actRep ≠ 0#8 →
      ticksLeft (tick u).1 + slotTicks (tick u).1 + 1 = ticksLeft u + slotTicks u := by
    intro u hinv h
    obtain ⟨-, hleft⟩ := tick_inv_ticksLeft_of_playing hinv h
    have hslot : slotTicks (tick u).1 = slotTicks u := by
      rw [slotTicks, slotTicks, State.pendEmpty, State.pendEmpty, tick_pendRep_of_playing h, tick_pendPat_of_playing h]
    omega
  by_cases h : s.actRep = 0#8
  case neg => exact hplaying s hinv h
  have hm : s.curMask = 0#8 := hinv.curMask_of_idle h
  have hnone : ticksLeft s = 0 := ticksLeft_eq_zero_iff.2 h
  have hr : s.pendRep ≠ 0#8 := slotTicks_pos_iff.1 (by rw [busy_iff] at hbusy; omega)
  by_cases hp : s.pendPat = 0#32
  case pos =>
    rw [slotTicks_of_zero hr hp, hnone, tick_of_waiting_zero h hr hp, ticksLeft_eq_zero_iff.2 rfl, slotTicks_of_empty rfl]
  obtain ⟨hinv', hleft, hslot⟩ := ticksLeft_pickUp h hm hr hp
  have hactive : (pickUp s).actRep ≠ 0#8 := by rwa [pickUp_of_waiting h hr]
  have hstep := hplaying (pickUp s) hinv' hactive
  rw [tick_pickUp] at hstep
  omega

/-- WAIT counts the ticks to wait for, one TICK each. -/
theorem waitTicks_eq {limit : Nat} (hinv : s.Inv) (hlimit : ticksLeft s + slotTicks s ≤ limit) :
    waitTicks limit s = some (ticksLeft s + slotTicks s) := by
  induction limit generalizing s with
  | zero =>
    have hquiet : ¬ s.busy = true := by
      rw [busy_iff]
      omega
    rw [waitTicks, if_neg hquiet, Nat.le_zero.1 hlimit]
  | succ k ih =>
    by_cases hbusy : s.busy = true
    · have hone := tick_takes_one_of_busy hinv hbusy
      rw [waitTicks, if_pos hbusy, ih (tick_inv hinv) (by omega), Option.map_some, hone]
    · have hnone : ticksLeft s + slotTicks s = 0 := by
        rw [busy_iff] at hbusy
        omega
      rw [waitTicks, if_neg hbusy, hnone]

end wait

/-- Settles O32: each TICK takes one from the ticks to wait for, and `busy` falls when none is left. -/
theorem waitLastsTicksLeftPlusSlot : Obligations.WaitLastsTicksLeftPlusSlot := by
  unfold Obligations.WaitLastsTicksLeftPlusSlot
  exact fun s limit => waitTicks_eq

/-- The only pattern of length 1 is 1. -/
theorem patternLength_eq_one_iff {p : Pattern} (hp : p ≠ 0#32) : patternLength p = 1 ↔ p = 1#32 := by
  constructor
  · intro hlen
    have hmsb : msbIndex p = 0 := Nat.succ_injective hlen
    refine BitVec.eq_of_getLsbD_eq fun i hi => ?_
    rcases Nat.eq_zero_or_pos i with rfl | hpos
    · have hbit := getLsbD_msbIndex hp
      rw [hmsb] at hbit
      exact hbit
    · rw [getLsbD_above_msbIndex hp (hmsb ▸ hpos), BitVec.getLsbD_one]
      simp [hpos.ne']
  · rintro rfl
    decide

/-- After the TICK that picks a playable request up, the CORE is busy unless that TICK was the request's only one. -/
theorem busy_tick_of_waiting {s : State} (h : s.actRep = 0#8) (hm : s.curMask = 0#8) (hr : s.pendRep ≠ 0#8)
    (hp : s.pendPat ≠ 0#32) : (tick s).1.busy = !decide (s.pendPat = 1#32 ∧ s.pendRep = 1#8) := by
  have hone := tick_takes_one_of_busy (inv_of_idle h hm) (busy_of_pendRep_ne_zero hr)
  have honly : slotTicks s = 1 ↔ s.pendPat = 1#32 ∧ s.pendRep = 1#8 := by
    rw [slotTicks_of_ne_zero hp, mul_eq_one, patternLength_eq_one_iff hp, and_comm, ← BitVec.toNat_inj (y := 1#8)]
    rfl
  rw [ticksLeft_eq_zero_iff.2 h, Nat.zero_add] at hone
  rw [Bool.eq_iff_iff, busy_iff, Bool.not_eq_true', decide_eq_false_iff_not, ← honly]
  omega

/-- The last TICK of a request leaves the engine Idle. -/
theorem tick_ends_request {s : State} (hinv : s.Inv) (h : s.actRep ≠ 0#8) (hlast : ticksLeft s = 1) :
    (tick s).1.actRep = 0#8 := by
  obtain ⟨-, hleft⟩ := tick_inv_ticksLeft_of_playing hinv h
  exact ticksLeft_eq_zero_iff.1 (by omega)

/-- Settles O33: a request's count decides for the slot, and the ticks to wait for decide after a TICK. -/
theorem busyChangesAsTabled : Obligations.BusyChangesAsTabled := by
  unfold Obligations.BusyChangesAsTabled
  have hcount : (1#8 : RepCount) ≠ 0#8 := by decide
  refine ⟨fun d s => ⟨_, exec_beepDuration d s, busy_of_pendRep_ne_zero hcount⟩,
    fun p s => ⟨_, exec_beepPattern p s, busy_of_pendRep_ne_zero hcount⟩,
    fun n d s hn => ⟨_, exec_beepCadence n d s, busy_of_pendRep_ne_zero hn⟩,
    fun d s => ⟨_, exec_beepCadence 0#8 d s, ?cancelled⟩,
    fun s h hm hr hp => ⟨_, exec_tick s, busy_tick_of_waiting h hm hr hp⟩,
    fun s h hr hp => ⟨_, exec_tick s, ?zeroPattern⟩,
    fun s h hinv hlast => ⟨_, exec_tick s, decide_eq_true (tick_ends_request hinv h hlast), ?last⟩,
    fun s => ⟨_, exec_init s, ?init⟩⟩
  case cancelled => simp [State.busy, State.engPlaying]
  case zeroPattern =>
    rw [tick_of_waiting_zero h hr hp]
    rfl
  case last =>
    rw [busy_of_idle (tick_ends_request hinv h hlast), State.pendEmpty, tick_pendRep_of_playing h]
    rfl
  case init =>
    obtain ⟨-, -, -, hbusy⟩ := initialised_flags s
    exact hbusy

/-- Settles O34: the bit 0 under the cursor ends the last repetition, and the Idle engine then only switches OUT off. -/
theorem outputHeldAfterCompletion : Obligations.OutputHeldAfterCompletion := by
  unfold Obligations.OutputHeldAfterCompletion
  intro s h hp hbyte hmask hr
  have hplaying : s.actRep ≠ 0#8 := by
    rw [h]
    decide
  have hlast : exec .tick s =
      .next { s with curMask := 0#8, actRep := 0#8, out := Level.ofBit (s.actPat.getLsbD 0) } := by
    rw [tickPlaysBitAtCursor s 0 hplaying hp (by decide) hbyte hmask, if_pos rfl, h]
    rfl
  have hsilent := (idleTicksAreAFixedPoint
    { s with curMask := 0#8, actRep := 0#8, out := Level.ofBit (s.actPat.getLsbD 0) } rfl hr).1
  refine ⟨_, _, hlast, ?quiet, rfl, hsilent, ?finished⟩
  case quiet => simp [State.busy, hr]
  case finished => simp [State.soundFinished, State.busy, hr]

/-- Settles O35: the ending TICK leaves an Idle engine without a cursor and the slot as it was, which the next TICK picks
up. -/
theorem nextRequestFollowsWithoutGap : Obligations.NextRequestFollowsWithoutGap := by
  unfold Obligations.NextRequestFollowsWithoutGap
  intro s hinv h hlast hr hp
  have hidle : (tick s).1.actRep = 0#8 := tick_ends_request hinv h hlast
  have hpat : (tick s).1.pendPat = s.pendPat := tick_pendPat_of_playing h
  have hrep : (tick s).1.pendRep = s.pendRep := tick_pendRep_of_playing h
  obtain ⟨hon, hact, hempty⟩ := tick_starts_request hidle ((tick_inv hinv).curMask_of_idle hidle)
    (by rwa [hrep]) (by rwa [hpat])
  exact ⟨_, _, exec_tick s, hidle, hpat, hrep, exec_tick _, hon, hact.trans hpat, hempty⟩

/-! ## What a cadence plays (R93, R95) -/

/-- An Idle engine plays the waiting request for its count of repetitions, none included, and WAIT takes as long. -/
theorem waiting_levels_and_wait {s : State} {m : Nat} (h : s.actRep = 0#8) (hm : s.curMask = 0#8)
    (htop : IsTopBit s.pendPat m) :
    tickLevels (s.pendRep.toNat * (m + 1)) s = (List.replicate s.pendRep.toNat (levelsFrom s.pendPat m)).flatten ∧
    waitTicks (s.pendRep.toNat * (m + 1)) s = some (s.pendRep.toNat * (m + 1)) := by
  have htotal : ticksLeft s + slotTicks s = s.pendRep.toNat * (m + 1) := by
    rw [ticksLeft_eq_zero_iff.2 h, slotTicks_of_isTopBit htop, Nat.zero_add]
  refine ⟨?levels, ?wait⟩
  case levels =>
    by_cases hr : s.pendRep = 0#8
    · simp [hr, tickLevels]
    · exact (requestPlaysItsRepetitions s m h hm hr htop).1
  case wait =>
    rw [← htotal]
    exact waitTicks_eq (inv_of_idle h hm) le_rfl

section cadence

variable {t : Nat}

theorem map_range_eq_replicate {f : Nat → Level} {level : Level} (hf : ∀ k < t, f k = level) :
    (List.range t).map f = List.replicate t level := by
  rw [List.eq_replicate_iff]
  refine ⟨by simp, fun b hb => ?_⟩
  obtain ⟨k, hk, rfl⟩ := List.mem_map.1 hb
  exact hf k (List.mem_range.1 hk)

theorem isTopBit_cadencePattern_high (hpos : 1 ≤ t) (h : t ≤ 16) : IsTopBit (cadencePattern .high t) (2 * t - 1) := by
  refine ⟨?_, fun j hj => ?_⟩
  · rw [getLsbD_cadencePattern h]
    exact decide_eq_true (by omega)
  · rw [getLsbD_cadencePattern h]
    exact decide_eq_false (by omega)

/-- A cycle of the layout LOW is ON throughout. -/
theorem levelsFrom_cadencePattern_low (hpos : 1 ≤ t) (h : t ≤ 16) :
    levelsFrom (cadencePattern .low t) (t - 1) = List.replicate t .on := by
  rw [levelsFrom, Nat.sub_add_cancel hpos]
  refine map_range_eq_replicate fun k hk => ?_
  have hset : (cadencePattern .low t).getLsbD (t - 1 - k) = true := by
    rw [getLsbD_cadencePattern h]
    exact decide_eq_true (by omega)
  rw [hset, Level.ofBit]

/-- A cycle of the layout HIGH is ON for its upper half and OFF for its lower. -/
theorem levelsFrom_cadencePattern_high (hpos : 1 ≤ t) (h : t ≤ 16) :
    levelsFrom (cadencePattern .high t) (2 * t - 1) = List.replicate t .on ++ List.replicate t .off := by
  have hlen : 2 * t - 1 + 1 = t + t := by omega
  rw [levelsFrom, hlen, List.range_add, List.map_append, List.map_map]
  congr 1
  · refine map_range_eq_replicate fun k hk => ?_
    have hset : (cadencePattern .high t).getLsbD (2 * t - 1 - k) = true := by
      rw [getLsbD_cadencePattern h]
      exact decide_eq_true (by omega)
    rw [hset, Level.ofBit]
  · refine map_range_eq_replicate fun k hk => ?_
    have hclear : (cadencePattern .high t).getLsbD (2 * t - 1 - (t + k)) = false := by
      rw [getLsbD_cadencePattern h]
      exact decide_eq_false (by omega)
    rw [Function.comp_apply, hclear, Level.ofBit]

end cadence

/-- Settles O37: the layout fixes the cycle's levels, which the Idle engine repeats `n` times. -/
theorem cadencePlaysItsLayout : Obligations.CadencePlaysItsLayout := by
  unfold Obligations.CadencePlaysItsLayout
  intro n d s t ht hpos h hm
  have hticks : cadenceTicks d = t := by rw [cadenceTicks_eq, ht]
  have hmax : t ≤ 16 := hticks ▸ cadenceTicks_le d
  refine ⟨pendWrite (cadencePattern s.cadenceLayout t, n) s, ?exec, fun hlow => ?low, fun hhigh => ?high⟩
  case exec =>
    rw [exec_beepCadence, hticks]
    rfl
  case low =>
    rw [hlow]
    obtain ⟨hlevels, hwait⟩ := waiting_levels_and_wait (s := pendWrite (cadencePattern .low t, n) s) h hm
      (isTopBit_lowBits hpos (by omega))
    rw [pendWrite_pendPat, levelsFrom_cadencePattern_low hpos hmax, List.flatten_replicate_replicate] at hlevels
    rw [Nat.sub_add_cancel hpos] at hlevels hwait
    exact ⟨hlevels, hwait⟩
  case high =>
    rw [hhigh]
    obtain ⟨hlevels, hwait⟩ := waiting_levels_and_wait (s := pendWrite (cadencePattern .high t, n) s) h hm
      (isTopBit_cadencePattern_high hpos hmax)
    rw [pendWrite_pendPat, levelsFrom_cadencePattern_high hpos hmax] at hlevels
    rw [Nat.sub_add_cancel (by omega)] at hlevels hwait
    exact ⟨hlevels, hwait⟩

end Sys2Proof.Machine
end

section
/-! Family other, what is read and what is left alone: the inputs that wait, the cadence layout, OUT, and the fields that an
empty slot and an Idle engine leave unread. -/

namespace Sys2Proof.Machine

/-! ## The inputs, the cadence layout and OUT -/

section frame

variable {s t : State}

/-- A TICK leaves the inputs as they are: putting the state's own there makes no difference. -/
theorem tick_inputs (s : State) : (tick s).1.inputs = s.inputs :=
  congrArg (fun r => r.1.inputs) (tick_withUnread s.inputs s.cadenceLayout s.out s)

theorem tick_cadenceLayout (s : State) : (tick s).1.cadenceLayout = s.cadenceLayout :=
  congrArg (fun r => r.1.cadenceLayout) (tick_withUnread s.inputs s.cadenceLayout s.out s)

/-- Every operation keeps the inputs that wait and the cadence layout. -/
theorem exec_keeps_layout_inputs {i : Instr} (h : exec i s = .next t) :
    t.cadenceLayout = s.cadenceLayout ∧ t.inputs = s.inputs := by
  by_cases ht : i = .tick
  · subst ht
    rw [← Host.Outcome.next.inj h]
    exact ⟨tick_cadenceLayout s, tick_inputs s⟩
  by_cases hi : i = .init
  · subst hi
    rw [← Host.Outcome.next.inj h]
    exact ⟨rfl, rfl⟩
  obtain ⟨request, hexec⟩ := exec_eq_pendWrite ht hi s
  rw [← Host.Outcome.next.inj (hexec.symm.trans h)]
  exact ⟨rfl, rfl⟩

theorem runEvents_keeps_layout_inputs {events : List Instr} (h : runEvents events s = .next t) :
    t.cadenceLayout = s.cadenceLayout ∧ t.inputs = s.inputs := by
  induction events generalizing s with
  | nil =>
    rw [← Host.Outcome.next.inj h]
    exact ⟨rfl, rfl⟩
  | cons i rest ih =>
    obtain ⟨u, hexec, hrest⟩ := runEvents_cons_next h
    obtain ⟨hlayout, hinputs⟩ := exec_keeps_layout_inputs hexec
    obtain ⟨hlayout', hinputs'⟩ := ih hrest
    exact ⟨hlayout'.trans hlayout, hinputs'.trans hinputs⟩

theorem sampleInputs_layout_inputs (s : State) :
    (sampleInputs s).2.cadenceLayout = s.cadenceLayout ∧ (sampleInputs s).2.inputs = s.inputs.tail := by
  cases hinputs : s.inputs with
  | nil =>
    rw [sampleInputs_nil hinputs, hinputs]
    exact ⟨rfl, rfl⟩
  | cons c rest =>
    rw [sampleInputs_cons hinputs]
    exact ⟨rfl, rfl⟩

end frame

/-- Settles O46: sampling takes the first inputs, and no event of the cycle changes what is left. -/
theorem stepKeepsLayoutAndConsumesInput : Obligations.StepKeepsLayoutAndConsumesInput := by
  unfold Obligations.StepKeepsLayoutAndConsumesInput
  intro s t h
  obtain ⟨hlayout, hinputs⟩ := runEvents_keeps_layout_inputs h
  obtain ⟨hsampled, htail⟩ := sampleInputs_layout_inputs s
  exact ⟨hlayout.trans hsampled, hinputs.trans htail⟩

/-- Settles O9: the TICK picks A up, and B's pair, which the layout alone decides, is written after it. -/
theorem sameCycleRefillKeepsBothRequests : Obligations.SameCycleRefillKeepsBothRequests := by
  unfold Obligations.SameCycleRefillKeepsBothRequests
  intro s cw rest hinputs hreq h hm hr hp
  obtain ⟨request, hexec⟩ := exec_request_of_layout hreq s.cadenceLayout
  obtain ⟨hon, hact, -⟩ := tick_starts_request (s := { s with inputs := rest }) h hm hr hp
  refine ⟨pendWrite request s, (tick { s with inputs := rest }).1, hexec s rfl, exec_tick _, ?refilled, hact, hon⟩
  case refilled =>
    rw [step_of_inputs_cons hinputs (decodeCycle_of_tick_request rfl rfl rfl), runEvents_tick_then]
    exact hexec _ (tick_cadenceLayout { s with inputs := rest })

/-! ## OUT and the inputs are not read -/

section unread

variable (ins : List Cycle) (level : Level) {s : State}

/-- A TICK passes other inputs on. -/
theorem tick_of_other_inputs (s : State) : (tick { s with inputs := ins }).1 = { (tick s).1 with inputs := ins } := by
  have hkept : ({ (tick s).1 with inputs := ins, cadenceLayout := s.cadenceLayout } : State) =
      { (tick s).1 with inputs := ins } := by rw [← tick_cadenceLayout s]
  exact (congrArg Prod.fst (tick_withUnread ins s.cadenceLayout s.out s)).trans hkept

/-- A TICK sets OUT, whatever it was. -/
theorem tick_of_other_out (s : State) : (tick { s with out := level }).1 = (tick s).1 := by
  have hkept : ({ (tick s).1 with inputs := s.inputs, cadenceLayout := s.cadenceLayout } : State) = (tick s).1 := by
    rw [← tick_cadenceLayout s, ← tick_inputs s]
  exact (congrArg Prod.fst (tick_withUnread s.inputs s.cadenceLayout level s)).trans hkept

/-- An operation that is neither TICK nor INIT makes the same write of the slot whatever OUT and the inputs are. -/
theorem exec_eq_pendWrite_of_unread {i : Instr} (ht : i ≠ .tick) (hi : i ≠ .init) (s : State) :
    ∃ request, ∀ (ins : List Cycle) (level : Level),
      exec i { s with inputs := ins, out := level } = .next (pendWrite request { s with inputs := ins, out := level }) := by
  cases i with
  | beepDuration d => exact ⟨encDuration d, fun _ _ => rfl⟩
  | beepCadence n d => exact ⟨encCadence s.cadenceLayout n d, fun _ _ => rfl⟩
  | beepPattern p => exact ⟨encPattern p, fun _ _ => rfl⟩
  | reservedOp3 => exact ⟨(s.pendPat, s.pendRep), fun _ _ => rfl⟩
  | tick => exact absurd rfl ht
  | init => exact absurd rfl hi

end unread

/-- Settles O44: TICK and INIT set OUT, and every other operation is a write of the slot, which OUT does not decide. -/
theorem noOperationReadsOut : Obligations.NoOperationReadsOut := by
  unfold Obligations.NoOperationReadsOut
  intro i s level
  by_cases ht : i = .tick
  · subst ht
    exact ⟨(tick s).1, exec_tick s, congrArg Host.Outcome.next (tick_of_other_out level s)⟩
  by_cases hi : i = .init
  · subst hi
    exact ⟨s.initialised, exec_init s, rfl⟩
  obtain ⟨request, hexec⟩ := exec_eq_pendWrite_of_unread ht hi s
  refine ⟨pendWrite request s, hexec s.inputs s.out, ?_⟩
  rw [if_neg (not_or.2 ⟨ht, hi⟩)]
  exact hexec s.inputs level

/-! ## The slot while it is empty and the active request while the engine is Idle -/

/-- An empty slot's pattern takes no part in a TICK: a Playing engine reads no slot, and an Idle one no empty slot. -/
theorem tick_of_other_pendPat (p : Pattern) {s : State} (hr : s.pendRep = 0#8) :
    (tick { s with pendPat := p }).1 = { (tick s).1 with pendPat := p } := by
  by_cases h : s.actRep = 0#8
  · have hother : tick { s with pendPat := p } = (setLevel .off { s with pendPat := p }, .off) :=
      tick_of_idle (s := { s with pendPat := p }) h hr
    rw [hother, tick_of_idle h hr]
    rfl
  · have hkept : pendWrite (p, s.pendRep) (tick s).1 = { (tick s).1 with pendPat := p } := by
      rw [← tick_pendRep_of_playing h, pendWrite]
    exact (congrArg Prod.fst (tick_pendWrite_of_playing (p, s.pendRep) h)).trans hkept

/-- An Idle engine's pattern and byte index take no part in a TICK: it rests, or a pick-up and the location of the cursor
write them. -/
theorem tick_of_other_active (p : Pattern) (b : ByteIndex) {s : State} (h : s.actRep = 0#8) (hm : s.curMask = 0#8) :
    ∃ q c, (tick { s with actPat := p, curByte := b }).1 = { (tick s).1 with actPat := q, curByte := c } := by
  by_cases hr : s.pendRep = 0#8
  case pos =>
    have hother := tick_of_idle (s := { s with actPat := p, curByte := b }) h hr
    refine ⟨p, b, ?_⟩
    rw [hother, tick_of_idle h hr]
    rfl
  by_cases hp : s.pendPat = 0#32
  case pos =>
    have hother := tick_of_waiting_zero (s := { s with actPat := p, curByte := b }) h hr hp
    refine ⟨0#32, b, ?_⟩
    rw [hother, tick_of_waiting_zero h hr hp]
  have htop : IsTopBit s.pendPat (msbIndex s.pendPat) := isTopBit_msbIndex hp
  have hown := tickPicksUpRequest s _ h hm hr htop
  have hother := tickPicksUpRequest { s with actPat := p, curByte := b } _ h hm hr htop
  refine ⟨(tick s).1.actPat, (tick s).1.curByte, Host.Outcome.next.inj (hother.trans ?_)⟩
  exact hown.symm

/-- Settles O45: a TICK by the branches of the engine, INIT and the requests by overwriting the field, and a reserved word
by leaving it. -/
theorem unreadFieldsDoNotMatter : Obligations.UnreadFieldsDoNotMatter := by
  unfold Obligations.UnreadFieldsDoNotMatter
  refine ⟨fun i s p hr => ?slot, fun i s p b h hm => ?active⟩
  case slot =>
    cases i with
    | beepDuration d => exact ⟨_, (encDuration d).1, exec_beepDuration d s, rfl⟩
    | beepCadence n d => exact ⟨_, _, exec_beepCadence n d s, rfl⟩
    | beepPattern q => exact ⟨_, q, rfl, rfl⟩
    | reservedOp3 => exact ⟨s, p, exec_reservedOp3 s, rfl⟩
    | tick => exact ⟨_, p, exec_tick s, congrArg Host.Outcome.next (tick_of_other_pendPat p hr)⟩
    | init => exact ⟨_, 0#32, exec_init s, rfl⟩
  case active =>
    cases i with
    | beepDuration d => exact ⟨_, p, b, exec_beepDuration d s, rfl⟩
    | beepCadence n d => exact ⟨_, p, b, exec_beepCadence n d s, rfl⟩
    | beepPattern q => exact ⟨_, p, b, rfl, rfl⟩
    | reservedOp3 => exact ⟨s, p, b, exec_reservedOp3 s, rfl⟩
    | tick =>
      obtain ⟨q, c, hother⟩ := tick_of_other_active p b h hm
      exact ⟨_, q, c, exec_tick s, congrArg Host.Outcome.next hother⟩
    | init => exact ⟨_, 0#32, 0#2, exec_init s, rfl⟩

end Sys2Proof.Machine
end

section
/-! Family other, runs: a run of events, of clock cycles driven one by one, and of clock cycles that wait in the state. -/

namespace Sys2Proof.Machine

/-! ## Infinite runs (R12) -/

/-- An infinite run's first `k` events are a run of those events. -/
theorem streamState_eq_runEvents (events : Nat → Instr) (s : State) (k : Nat) :
    streamState events s k = runEvents ((List.range k).map events) s := by
  induction k with
  | zero => rfl
  | succ k ih =>
    rw [streamState_succ, ih, List.range_succ, List.map_append, runEvents_append]
    exact congrArg (chain _) (funext fun t => (runEvents_singleton (events k) t).symm)

theorem streamState_total (events : Nat → Instr) (s : State) (k : Nat) : ∃ t, streamState events s k = .next t := by
  rw [streamState_eq_runEvents]
  exact runEvents_total _ s

/-- Settles O47: the trace consists of the states that the run, which never stops, has before each event. -/
theorem infiniteRunShowsLevelsAndBusy : Obligations.InfiniteRunShowsLevelsAndBusy := by
  unfold Obligations.InfiniteRunShowsLevelsAndBusy
  intro events s
  choose trace htrace using streamState_total events s
  have hstart : trace 0 = s := (Host.Outcome.next.inj (htrace 0)).symm
  refine ⟨trace, hstart, fun k => ?_⟩
  have hexec : exec (events k) (trace k) = .next (trace (k + 1)) := by
    rw [← htrace (k + 1), streamState_succ, htrace k, chain_next]
  refine ⟨htrace k, hexec, ?_⟩
  rw [streamObservation_of_next (htrace (k + 1)), observe]
  by_cases ht : events k = .tick
  · rw [ht] at hexec
    rw [if_pos ht, if_pos ht, ← Host.Outcome.next.inj hexec, tick_out]
  · rw [if_neg ht, if_neg ht]

/-- What a run shows of its last events is what a run from the state before them shows. -/
theorem observations_append {es : List Instr} {s t : State} (h : runEvents es s = .next t) (fs : List Instr) :
    observations (es ++ fs) s = observations es s ++ observations fs t := by
  induction es generalizing s with
  | nil =>
    rw [← Host.Outcome.next.inj h]
    rfl
  | cons i rest ih =>
    obtain ⟨u, hexec, hrest⟩ := runEvents_cons_next h
    rw [List.cons_append, observations_cons hexec, observations_cons hexec, ih hrest, List.cons_append]

/-- Settles O48, by induction on the number of events: the last one is observed in the state that both runs have. -/
theorem finiteRunIsPrefixOfInfiniteRun : Obligations.FiniteRunIsPrefixOfInfiniteRun := by
  unfold Obligations.FiniteRunIsPrefixOfInfiniteRun
  intro events s n
  induction n with
  | zero => rfl
  | succ n ih =>
    obtain ⟨t, ht⟩ := streamState_total events s n
    obtain ⟨u, hu⟩ := exec_total (events n) t
    have hlast : streamState events s (n + 1) = .next u := by rw [streamState_succ, ht, chain_next, hu]
    rw [streamState_eq_runEvents] at ht
    rw [List.range_succ, List.map_append, List.map_append, observations_append ht, List.map_append, ih]
    simp [observations_cons hu, streamObservation_of_next hlast]

/-! ## Clock cycles (R74) -/

/-- Driven clock cycles perform the events they expand to. -/
theorem clockedState_eq_runEvents (cycles : Nat → Cycle) (s : State) (k : Nat) :
    clockedState cycles s k = runEvents (((List.range k).map cycles).flatMap decodeCycle) s := by
  induction k with
  | zero => rfl
  | succ k ih =>
    rw [clockedState_succ, ih, List.range_succ, List.map_append, List.flatMap_append, runEvents_append, List.map_singleton,
      List.flatMap_singleton]
    rfl

/-- Settles O49: with one operation encoded in each cycle the events are these operations. -/
theorem clockedRunsAreEventRuns : Obligations.ClockedRunsAreEventRuns := by
  unfold Obligations.ClockedRunsAreEventRuns
  refine ⟨clockedState_eq_runEvents, fun events s k => ?oneEventACycle⟩
  case oneEventACycle =>
    rw [clockedState_eq_runEvents, streamState_eq_runEvents, List.flatMap_map, List.map_eq_flatMap]
    simp only [decodeCycle_encode]

section waiting

variable (ins : List Cycle) {s t : State}

/-- Every operation passes other inputs on. -/
theorem exec_of_other_inputs {i : Instr} (h : exec i s = .next t) :
    exec i { s with inputs := ins } = .next { t with inputs := ins } := by
  by_cases ht : i = .tick
  · subst ht
    rw [← Host.Outcome.next.inj h]
    exact congrArg Host.Outcome.next (tick_of_other_inputs ins s)
  by_cases hi : i = .init
  · subst hi
    rw [← Host.Outcome.next.inj h]
    rfl
  obtain ⟨request, hexec⟩ := exec_eq_pendWrite_of_unread ht hi s
  rw [← Host.Outcome.next.inj ((hexec s.inputs s.out).symm.trans h)]
  exact hexec ins s.out

theorem runEvents_of_other_inputs {events : List Instr} (h : runEvents events s = .next t) :
    runEvents events { s with inputs := ins } = .next { t with inputs := ins } := by
  induction events generalizing s with
  | nil =>
    rw [← Host.Outcome.next.inj h]
    rfl
  | cons i rest ih =>
    obtain ⟨u, hexec, hrest⟩ := runEvents_cons_next h
    rw [runEvents, exec_of_other_inputs ins hexec, chain_next, ih hrest]

/-- Clock cycles whose inputs wait in the state perform the events they expand to, and leave the inputs after them. -/
theorem runSteps_of_waiting (cs rest : List Cycle) (s : State) :
    runSteps cs.length { s with inputs := cs ++ rest } = runEvents (cs.flatMap decodeCycle) { s with inputs := rest } := by
  induction cs generalizing s with
  | nil => rfl
  | cons c cs ih =>
    obtain ⟨t, ht⟩ := clockCycle_total c s
    have hstep : step { s with inputs := c :: cs ++ rest } = .next { t with inputs := cs ++ rest } :=
      (step_of_inputs_cons rfl rfl).trans (runEvents_of_other_inputs (s := s) (cs ++ rest) ht)
    rw [List.length_cons, runSteps_succ, hstep, chain_next, ih, List.flatMap_cons, runEvents_append,
      runEvents_of_other_inputs rest ht, chain_next]

end waiting

/-- Settles O50: waiting or driven, the cycles perform the events they expand to. -/
theorem waitingInputsRunAsDriven : Obligations.WaitingInputsRunAsDriven := by
  unfold Obligations.WaitingInputsRunAsDriven
  intro cycles s n
  have hwaiting := runSteps_of_waiting ((List.range n).map cycles) s.inputs s
  rw [List.length_map, List.length_range] at hwaiting
  rw [hwaiting, clockedState_eq_runEvents]

end Sys2Proof.Machine
end
